-- ==== Sys2Proof/Word.lean ====
section
/-! DEFINITION. The bit vectors of the core: what the spec treats as bits, and nothing else. -/

namespace Sys2Proof

/-- A stack value and an operand: 64 bits, two's complement (00_scope.md R5 `XLEN`, 42_arithmetic.md R100). -/
abbrev Value := BitVec 64

/-- An instruction word: 72 bits (30_encoding.md R51). -/
abbrev InstrWord := BitVec 72

/-- The opcode field of an instruction word: 8 bits (30_encoding.md R51). -/
abbrev Opcode := BitVec 8

/-- The instruction pointer's 64 bits (10_state.md R14). -/
abbrev InstrIndex := BitVec 64

/-- `INT64_MIN` of 00_scope.md R6, as a 64-bit vector. -/
abbrev int64Min : Value := 0x8000000000000000#64

/-- `INT64_MAX` of 00_scope.md R6, as a 64-bit vector. -/
abbrev int64Max : Value := 0x7FFFFFFFFFFFFFFF#64

end Sys2Proof
end

