-- ==== Sys2Proof/Config.lean ====
section
/-! DEFINITION. What an implementation of the core fixes (00_scope.md R5).
The spec leaves no value of a step open, so there is no free value here. -/

namespace Sys2Proof

/-- The default of the stack capacity `C` (00_scope.md R5, decision D12; the literal is unaudited).
DESIGN CHOICE, unsafe for claims about `State.reset` alone (log 2): the state after reset takes this default.
`C` itself is the field `capacity` of the state, so that statements quantify over it. -/
def Config.defaultCapacity : Nat := 1028

/-- The bound `PROG_LEN < 2^63` of 00_scope.md R5 (decision D13). -/
def Config.progLenBound : Nat := 2 ^ 63

end Sys2Proof
end

