-- ==== Sys2Proof/Syntax.lean ====
section
/-! DEFINITION. The closed set of seven instructions, and what a word decodes to. -/

namespace Sys2Proof

/-- The seven instructions (00_scope.md R1, 30_encoding.md R50): one constructor per row of the opcode table,
with an operand only where the opcode declares one (30_encoding.md R58). -/
inductive Instr where
  /-- `PUSH v`: the operand is the value to push (41_push.md R90). -/
  | push (v : Value)
  /-- `PLUS` (42_arithmetic.md R96). -/
  | plus
  /-- `MINUS` (42_arithmetic.md R97). -/
  | minus
  /-- `MULT` (42_arithmetic.md R98). -/
  | mult
  /-- `DIV` (42_arithmetic.md R99). -/
  | div
  /-- `JMP t`: the operand is the absolute target index (43_control.md R110). -/
  | jmp (t : InstrIndex)
  /-- `HALT` (43_control.md R112). -/
  | halt
deriving DecidableEq, Repr

/-- The eight outcomes of decoding (30_encoding.md R57, R58): one of the seven instructions, or an illegal word,
named by its opcode byte. -/
inductive Decoded where
  | instr (i : Instr)
  | illegal (opc : Opcode)
deriving DecidableEq, Repr

/-- The program `P`: a finite sequence of instruction words, index 0 first (20_memory.md R31). -/
abbrev Program := List InstrWord

end Sys2Proof
end

