-- ==== Sys2Proof/WellFormed.lean ====
section
/-! DEFINITION. Well-formedness of instructions and programs.

Every operand value of every opcode is legal: a JMP operand that is negative or too large is still a
well-formed instruction (30_encoding.md R53), and an ignored operand may be anything (R55). The widths are in the
types, so no instruction is ill-formed. What can be ill-formed is a program: its length (00_scope.md R5) and, for the
driver's boot requirement, its JMP targets (70_reset_and_hazards.md R153). -/

namespace Sys2Proof

/-- Well-formed instructions: all of them (30_encoding.md R53, R55). -/
def Instr.wf : Instr → Bool
  | .push _ => true
  | .plus => true
  | .minus => true
  | .mult => true
  | .div => true
  | .jmp _ => true
  | .halt => true

/-- `PROG_LEN < 2^63` (00_scope.md R5). The canonical form of the program space: a list of words is determined by
its entries, so the bound is all there is to check. -/
abbrev Program.wf (p : Program) : Prop := p.length < Config.progLenBound

/-- The JMP target of an instruction, if it has one, lies inside a program of `n` words
(70_reset_and_hazards.md R153 (3)). -/
def Instr.jumpsInside (n : Nat) : Instr → Bool
  | .push _ => true
  | .plus => true
  | .minus => true
  | .mult => true
  | .div => true
  | .jmp t => decide (t.toNat < n)
  | .halt => true

end Sys2Proof
end

