-- ==== Sys2Proof/Decode.lean ====
section
/-! DEFINITION. The decoder, total on all 2^72 words, and after it the encoder and the opcode table
(30_encoding.md). -/

namespace Sys2Proof

/-- Bits 71:64 of an instruction word (30_encoding.md R51). -/
def opcodeField (w : InstrWord) : Opcode := w.extractLsb' 64 8

/-- Bits 63:0 of an instruction word (30_encoding.md R51, R53): all 64 bits as they stand. -/
def operandField (w : InstrWord) : Value := w.extractLsb' 0 64

/-- Decoding (30_encoding.md R57): bits 71:64 select, an opcode outside 0x00 to 0x06 is illegal (R56), and the
operand of an opcode that declares none is dropped (R55). -/
def decode (w : InstrWord) : Decoded :=
  match (opcodeField w).toNat with
  | 0 => .instr (.push (operandField w))
  | 1 => .instr .plus
  | 2 => .instr .minus
  | 3 => .instr .mult
  | 4 => .instr .div
  | 5 => .instr (.jmp (operandField w))
  | 6 => .instr .halt
  | _ => .illegal (opcodeField w)

/-- The opcode number of an instruction (30_encoding.md R52). -/
def opcodeOf : Instr → Opcode
  | .push _ => 0x00#8
  | .plus => 0x01#8
  | .minus => 0x02#8
  | .mult => 0x03#8
  | .div => 0x04#8
  | .jmp _ => 0x05#8
  | .halt => 0x06#8

/-- The operand field of the canonical word: zero where the opcode declares no operand (30_encoding.md R59). -/
def operandOf : Instr → Value
  | .push v => v
  | .plus => 0#64
  | .minus => 0#64
  | .mult => 0#64
  | .div => 0#64
  | .jmp t => t
  | .halt => 0#64

/-- Whether the opcode declares an operand (30_encoding.md R50, R52). -/
def declaresOperand : Instr → Bool
  | .push _ => true
  | .plus => false
  | .minus => false
  | .mult => false
  | .div => false
  | .jmp _ => true
  | .halt => false

/-- The word `opc ++ opd`: the opcode in the high bits (30_encoding.md R51, R59). -/
def wordOf (opc : Opcode) (opd : Value) : InstrWord := opc ++ opd

/-- The canonical word of an instruction (30_encoding.md R59). -/
def encode (i : Instr) : InstrWord := wordOf (opcodeOf i) (operandOf i)

/-- The mnemonic, exactly as the source spells it (30_encoding.md R61). -/
def Instr.mnemonic : Instr → String
  | .push _ => "PUSH"
  | .plus => "PLUS"
  | .minus => "MINUS"
  | .mult => "MULT"
  | .div => "DIV"
  | .jmp _ => "JMP"
  | .halt => "HALT"

/-- A row of the machine-readable opcode table (30_encoding.md R62). -/
structure TableRow where
  mnemonic : String
  pattern : InstrWord
  mask : InstrWord
deriving DecidableEq, Repr

/-- A word is the row's instruction exactly when `w AND mask = match` (30_encoding.md R62). -/
def TableRow.covers (row : TableRow) (w : InstrWord) : Bool := w &&& row.mask == row.pattern

/-- The seven rows, in opcode order, as opcode_table.json has them (30_encoding.md R62). -/
def opcodeTable : List TableRow :=
  [ ⟨"PUSH", 0x000000000000000000#72, 0xFF0000000000000000#72⟩,
    ⟨"PLUS", 0x010000000000000000#72, 0xFF0000000000000000#72⟩,
    ⟨"MINUS", 0x020000000000000000#72, 0xFF0000000000000000#72⟩,
    ⟨"MULT", 0x030000000000000000#72, 0xFF0000000000000000#72⟩,
    ⟨"DIV", 0x040000000000000000#72, 0xFF0000000000000000#72⟩,
    ⟨"JMP", 0x050000000000000000#72, 0xFF0000000000000000#72⟩,
    ⟨"HALT", 0x060000000000000000#72, 0xFF0000000000000000#72⟩ ]

/-- The instruction word whose bits below `nbits` are those of `w` and whose other bits are zero. The table numbers
the bits of the one 72-bit word as the spec does (30_encoding.md R51), and the core has no bytes (20_memory.md R35), so
no byte order enters (log 7). -/
def tableWord (nbits w : Nat) : InstrWord := BitVec.ofNat 72 (w % 2 ^ nbits)

/-- What the decoder reads from a table word; none where the word is illegal. -/
def decodeTableWord (nbits w : Nat) : Option Instr :=
  match decode (tableWord nbits w) with
  | .instr i => some i
  | .illegal _ => none

/-- Every word of the program that is a JMP has its target inside the program (70_reset_and_hazards.md R153 (3)). -/
def jumpsInside (p : Program) : Bool :=
  p.all fun w =>
    match decode w with
    | .instr i => i.jumpsInside p.length
    | .illegal _ => true

/-- What the driver must provide before the first step (70_reset_and_hazards.md R153 (2), (3)). -/
def bootable (p : Program) : Bool := decide (Program.wf p) && jumpsInside p

end Sys2Proof
end

