-- ==== Sys2Proof/Machine/State.lean ====
section
/-! DEFINITION. The state of the core, plain data, and its value after reset (10_state.md). -/

namespace Sys2Proof.Machine

/-- The trap values a step returns (60_exceptions.md R120): OK is one of them (R127). -/
inductive Trap where
  /-- The step succeeded, or the machine was halted. -/
  | ok
  /-- PUSH with `size = C` (R122). -/
  | stackOverflow
  /-- A binary operation with `size < 2` (R123). -/
  | stackUnderflow
  /-- An opcode outside the closed set (R124). -/
  | illegalInst
  /-- DIV with the top of stack zero (R125). -/
  | divisionByZero
  /-- A fetch outside the program (R126, the spec's decision D8). -/
  | outOfBoundsFetch
deriving DecidableEq, Repr

/-- The core's four pieces of state (10_state.md R11 to R16), the `trap` output (R18), and the three parameters of a
step (R19), which no step changes.

`size` is the length of `stack` and `PROG_LEN` the length of `prog`: each is stored once, as R12 advises, so that
no cell at or above `size` has a value here. -/
structure State where
  /-- `stack[0 .. size-1]`, bottom first: entry `i` is `stack[i]`, the last entry is the top (R11). -/
  stack : List Value
  /-- The instruction pointer, an instruction index read unsigned (R14). -/
  ip : InstrIndex
  /-- The only flag (R16). -/
  halted : Bool
  /-- The trap output: the trap of the most recent step (R18). No step reads it. -/
  trap : Trap
  /-- The program `P`, presented by the driver (R19). -/
  prog : Program
  /-- The stack capacity `C` (R19). -/
  capacity : Nat
deriving DecidableEq, Repr

/-- Why a step would stop with a fault: never. Every trap of this core is a value that a step returns with a next state
(60_exceptions.md R120, R131), so this closed type has no constructor, which is safe: nothing is hidden in it. -/
inductive Fault where
deriving DecidableEq, Repr

/-- Why a step would be refused. -/
inductive Refusal where
  /-- Raised by an arm of `exec` whose instruction has no meaning yet; no arm does. Safe: the run stops. -/
  | notModelled (mnemonic : String)
deriving DecidableEq, Repr

/-- What one step answers. -/
abbrev Result := Host.Outcome State Fault Refusal

/-- The number of values on the stack (10_state.md R13). -/
def State.size (s : State) : Nat := s.stack.length

/-- `PROG_LEN` (00_scope.md R5). -/
def State.progLen (s : State) : Nat := s.prog.length

/-- The read of a stack cell: its value below `size`, nothing at and above `size`, where the spec gives a cell no value
that a claim may name (10_state.md R12; log 4). -/
def State.cell (s : State) (i : Nat) : Option Value := s.stack[i]?

/-- The machine right after reset (10_state.md R23, 70_reset_and_hazards.md R150): stack empty, `ip` 0, not halted,
trap output OK. The driver has presented no program yet (DESIGN CHOICE, log 1), and the capacity is the spec's default
(DESIGN CHOICE, log 2). -/
def State.reset : State where
  stack := []
  ip := 0
  halted := false
  trap := .ok
  prog := []
  capacity := Config.defaultCapacity

end Sys2Proof.Machine
end

