-- ==== Sys2Proof/Machine/Flags.lean ====
section
/-! DEFINITION. The flag and the trap output. `halted` is the only flag: the machine has no condition codes, and no
arithmetic instruction records anything about its result (10_state.md R16, 42_arithmetic.md R102). -/

namespace Sys2Proof.Machine

/-- `halted <- true`, the effect of HALT on the flag (43_control.md R112). -/
def State.setHalted (s : State) : State := { s with halted := true }

/-- The trap output takes the value a step returns (10_state.md R18). -/
def State.withTrap (s : State) (t : Trap) : State := { s with trap := t }

/-- The 3-bit code on the `trap` output (60_exceptions.md R120, R121, decision D3). -/
def Trap.code : Trap → BitVec 3
  | .ok => 0
  | .stackOverflow => 1
  | .stackUnderflow => 2
  | .illegalInst => 3
  | .divisionByZero => 4
  | .outOfBoundsFetch => 5

/-- The trap a 3-bit code stands for; codes 6 and 7 stand for none (60_exceptions.md R120). -/
def Trap.ofCode (c : BitVec 3) : Option Trap :=
  match c.toNat with
  | 0 => some .ok
  | 1 => some .stackOverflow
  | 2 => some .stackUnderflow
  | 3 => some .illegalInst
  | 4 => some .divisionByZero
  | 5 => some .outOfBoundsFetch
  | _ => none

/-- The stable name of a trap, its identifier (60_exceptions.md R129). -/
def Trap.name : Trap → String
  | .ok => "OK"
  | .stackOverflow => "STACK_OVERFLOW"
  | .stackUnderflow => "STACK_UNDERFLOW"
  | .illegalInst => "ILLEGAL_INST"
  | .divisionByZero => "DIVISION_BY_ZERO"
  | .outOfBoundsFetch => "OUT_OF_BOUNDS_FETCH"

end Sys2Proof.Machine
end

