-- ==== Sys2Proof/Machine/Operands.lean ====
section
/-! DEFINITION. Operands and the arithmetic on them.

The operand forms are two: the instruction's own 64-bit field, used as it stands (30_encoding.md R53, R54), which
is the constructor's argument; and the top two cells of the stack (42_arithmetic.md R95). The four functions of the
arithmetic unit compute exactly on integers and narrow once at the end (00_scope.md R7). -/

namespace Sys2Proof.Machine

/-- The unsigned reading of a 64-bit vector (00_scope.md R6). -/
def uint (v : BitVec 64) : Nat := v.toNat

/-- The two's complement reading of a 64-bit vector (00_scope.md R6, decision D4). -/
def sint (v : Value) : Int := v.toInt

/-- `wrap64(n)`: the 64-bit vector congruent to `n` modulo 2^64 (00_scope.md R6). -/
def wrap64 (n : Int) : Value := BitVec.ofInt 64 n

/-- The quotient truncated toward zero, as 00_scope.md R7 writes it: the product of the signs times the floor of the
quotient of the magnitudes. -/
def tdiv (a b : Int) : Int := a.sign * b.sign * ((a.natAbs / b.natAbs : Nat) : Int)

/-- PLUS's function (42_arithmetic.md R96; wrap-around is decision D5, log 9). -/
def plusValue (a b : Value) : Value := wrap64 (sint a + sint b)

/-- MINUS's function (42_arithmetic.md R97; wrap-around is decision D5, log 9). -/
def minusValue (a b : Value) : Value := wrap64 (sint a - sint b)

/-- MULT's function (42_arithmetic.md R98; wrap-around is decision D5, log 9). -/
def multValue (a b : Value) : Value := wrap64 (sint a * sint b)

/-- DIV's function on a divisor that is not zero (42_arithmetic.md R99; `INT64_MIN / -1` is decision D6, log 9). -/
def divValue (a b : Value) : Value := wrap64 (tdiv (sint a) (sint b))

/-- With two values on the stack, the cell just below the top exists. -/
theorem leftIndex_lt {s : State} (h : ¬ s.size < 2) : s.size - 2 < s.stack.length := by
  unfold State.size at *; omega

/-- With two values on the stack, the top exists. -/
theorem rightIndex_lt {s : State} (h : ¬ s.size < 2) : s.size - 1 < s.stack.length := by
  unfold State.size at *; omega

/-- The LEFT operand `a = stack[size-2]`, read only after the check `size >= 2` (42_arithmetic.md R95, 20_memory.md
R33). -/
def leftOperand (s : State) (h : ¬ s.size < 2) : Value := s.stack[s.size - 2]'(leftIndex_lt h)

/-- The RIGHT operand `b = stack[size-1]`, the top of stack (42_arithmetic.md R95). -/
def rightOperand (s : State) (h : ¬ s.size < 2) : Value := s.stack[s.size - 1]'(rightIndex_lt h)

end Sys2Proof.Machine
end

