-- ==== Sys2Proof/Machine/Ops.lean ====
section
/-! DEFINITION. The shared operations: reading the program, writing the stack and `ip`, ending a step with OK, taking a
trap, and the common shape of the binary operations. -/

namespace Sys2Proof.Machine

/-- `raise T` (00_scope.md R7, 40_execution_engine.md R76): the step ends, returns `T` and writes no state at all, `ip`
included (decision D9, log 11). This is all of taking a trap: no handler, no saved state, no change of mode
(60_exceptions.md R131); and there is no return from a trap (R132). -/
def raise (t : Trap) (s : State) : Result := .next (s.withTrap t)

/-- `return OK` (00_scope.md R7): the step's writes, which `s` holds, take effect together. -/
def complete (s : State) : Result := .next (s.withTrap .ok)

/-- `ip <- ip + 1` (40_execution_engine.md R78). -/
def State.advance (s : State) : State := { s with ip := s.ip + 1 }

/-- `ip <- t`, all 64 bits (43_control.md R110). -/
def State.jumpTo (s : State) (t : InstrIndex) : State := { s with ip := t }

/-- `stack[size] <- v; size <- size + 1` (41_push.md R90). -/
def State.pushCell (s : State) (v : Value) : State := { s with stack := s.stack ++ [v] }

/-- `stack[size-2] <- r; size <- size - 1` (42_arithmetic.md R95): the cells below `size-2` stay, the old top leaves the
stack. -/
def State.replaceTopTwo (s : State) (r : Value) : State := { s with stack := s.stack.take (s.size - 2) ++ [r] }

/-- The fetch (20_memory.md R31, 40_execution_engine.md R74): the word `P[uint(ip)]` where `uint(ip) < PROG_LEN`, no
program read otherwise. -/
def fetch (s : State) : Option InstrWord :=
  if h : uint s.ip < s.progLen then some (s.prog[uint s.ip]'h) else none

/-- The common shape of PLUS, MINUS, MULT and DIV (42_arithmetic.md R95): the check `size >= 2`, the two operands, the
operation's own check on the right operand, then the one write. -/
def binaryOperation (check : Value → Option Trap) (f : Value → Value → Value) (s : State) : Result :=
  if h : s.size < 2 then raise .stackUnderflow s
  else
    match check (rightOperand s h) with
    | some t => raise t s
    | none => complete (s.replaceTopTwo (f (leftOperand s h) (rightOperand s h))).advance

/-- No check on the right operand (PLUS, MINUS, MULT: 42_arithmetic.md R96 to R98). -/
def noCheck (_ : Value) : Option Trap := none

/-- DIV's check on the right operand (42_arithmetic.md R99). -/
def divisorCheck (b : Value) : Option Trap := if sint b = 0 then some .divisionByZero else none

/-- The program with `w` at index `i`: every other word stays, and where `i` lies beyond the end the gap is filled with
zero words (log 8). -/
def placeWord (p : Program) (i : Nat) (w : InstrWord) : Program :=
  if i < p.length then p.set i w else p ++ List.replicate (i - p.length) 0 ++ [w]

end Sys2Proof.Machine
end

