-- ==== Sys2Proof/Machine/Arithmetic.lean ====
section
/-! DEFINITION. The arithmetic unit (42_arithmetic.md). -/

namespace Sys2Proof.Machine

/-- PLUS (42_arithmetic.md R96). -/
def execPlus (s : State) : Result := binaryOperation noCheck plusValue s

/-- MINUS, left minus right (42_arithmetic.md R97). -/
def execMinus (s : State) : Result := binaryOperation noCheck minusValue s

/-- MULT (42_arithmetic.md R98). -/
def execMult (s : State) : Result := binaryOperation noCheck multValue s

/-- DIV, left divided by right (42_arithmetic.md R99): `size >= 2` is checked before the divisor (40_execution_engine.md
R77). -/
def execDiv (s : State) : Result := binaryOperation divisorCheck divValue s

end Sys2Proof.Machine
end

