-- ==== Sys2Proof/Machine/Control.lean ====
section
/-! DEFINITION. Control transfer and halt (43_control.md), and the three ends of a step that execute no instruction. -/

namespace Sys2Proof.Machine

/-- JMP t (43_control.md R110): no precondition; a target outside the program traps at the next step's fetch (R111). -/
def execJmp (t : InstrIndex) (s : State) : Result := complete (s.jumpTo t)

/-- HALT (43_control.md R112): `halted` is set and `ip` advances (90_conflicts.md C2, log 11). -/
def execHalt (s : State) : Result := complete s.setHalted.advance

/-- A step on a halted machine (40_execution_engine.md R73): a no-op that returns OK. -/
def haltedStep (s : State) : Result := complete s

/-- A step whose fetch finds no instruction (40_execution_engine.md R74, 60_exceptions.md R126). -/
def fetchTrap (s : State) : Result := raise .outOfBoundsFetch s

/-- A step whose word is illegal (40_execution_engine.md R75, 60_exceptions.md R124): the opcode and the operand play no
further part. -/
def illegalTrap (_opc : Opcode) (s : State) : Result := raise .illegalInst s

end Sys2Proof.Machine
end

