-- ==== Sys2Proof/Machine/Push.lean ====
section
/-! DEFINITION. Stack data movement (41_push.md): PUSH, the one instruction that makes the stack grow (R91). -/

namespace Sys2Proof.Machine

/-- PUSH v (41_push.md R90): the capacity check `size = C` comes before the write. -/
def execPush (v : Value) (s : State) : Result :=
  if s.size = s.capacity then raise .stackOverflow s else complete (s.pushCell v).advance

end Sys2Proof.Machine
end

