-- ==== Sys2Proof/Machine/Dispatch.lean ====
section
/-! DEFINITION. One arm per instruction (40_execution_engine.md R72, part 4). -/

namespace Sys2Proof.Machine

def exec (i : Instr) (s : State) : Host.Outcome State Fault Refusal :=
  match i with
  | .push v => Sys2Proof.Machine.execPush v s
  | .plus => Sys2Proof.Machine.execPlus s
  | .minus => Sys2Proof.Machine.execMinus s
  | .mult => Sys2Proof.Machine.execMult s
  | .div => Sys2Proof.Machine.execDiv s
  | .jmp t => Sys2Proof.Machine.execJmp t s
  | .halt => Sys2Proof.Machine.execHalt s

end Sys2Proof.Machine
end

