-- ==== Sys2Proof/Machine/Step.lean ====
section
/-! DEFINITION. The step (40_execution_engine.md R72). -/

namespace Sys2Proof.Machine

/-- Parts 3 and 4 of a step: decode the fetched word, then execute the instruction or trap (30_encoding.md R56, R57). -/
def runWord (w : InstrWord) (s : State) : Result :=
  match decode w with
  | .instr i => exec i s
  | .illegal opc => illegalTrap opc s

/-- The step of 40_execution_engine.md R72, its checks in that order: halted, fetch, opcode, the opcode's own. -/
def step (s : State) : Host.Outcome State Fault Refusal :=
  if s.halted then haltedStep s
  else
    match fetch s with
    | none => fetchTrap s
    | some w => runWord w s

/-- `s` with the table word `w` stored where the next step fetches (log 8): the machine is made to run, and the
driver's program has the word at index `ip`. -/
def State.withFetchWord (s : State) (nbits w : Nat) : State :=
  { s with halted := false, prog := placeWord s.prog (uint s.ip) (tableWord nbits w) }

end Sys2Proof.Machine
end

