-- ==== Sys2Proof/Machine/Access.lean ====
section
/-! DEFINITION. Which elements a step reads and writes (20_memory.md R36). -/

namespace Sys2Proof.Machine

/-- The element indices a step touches. -/
structure Access where
  programReads : List Nat
  stackReads : List Nat
  stackWrites : List Nat
deriving DecidableEq, Repr

/-- No access: a halted step, or a step that traps at its fetch (20_memory.md R36). -/
def Access.none : Access := ⟨[], [], []⟩

/-- The stack accesses of a binary operation: both operands are read, and the left operand's cell is written unless
the operation's own check fails. DIV with a zero divisor reads both, as its pseudocode does (42_arithmetic.md R95; R36
says it need not use the left one; log 17). -/
def binaryAccess (check : Value → Option Trap) (ip : Nat) (s : State) : Access :=
  if h : s.size < 2 then ⟨[ip], [], []⟩
  else
    match check (rightOperand s h) with
    | some _ => ⟨[ip], [s.size - 2, s.size - 1], []⟩
    | none => ⟨[ip], [s.size - 2, s.size - 1], [s.size - 2]⟩

/-- The accesses of executing an instruction fetched at index `ip` (20_memory.md R36). -/
def instrAccess (i : Instr) (ip : Nat) (s : State) : Access :=
  match i with
  | .push _ => if s.size = s.capacity then ⟨[ip], [], []⟩ else ⟨[ip], [], [s.size]⟩
  | .plus => binaryAccess noCheck ip s
  | .minus => binaryAccess noCheck ip s
  | .mult => binaryAccess noCheck ip s
  | .div => binaryAccess divisorCheck ip s
  | .jmp _ => ⟨[ip], [], []⟩
  | .halt => ⟨[ip], [], []⟩

/-- The accesses of a step (20_memory.md R36). -/
def accesses (s : State) : Access :=
  if s.halted then Access.none
  else
    match fetch s with
    | Option.none => Access.none
    | some w =>
      match decode w with
      | .instr i => instrAccess i (uint s.ip) s
      | .illegal _ => ⟨[uint s.ip], [], []⟩

end Sys2Proof.Machine
end

