-- ==== Sys2Proof/Machine/Driver.lean ====
section
/-! DEFINITION. What the driver does to the core (70_reset_and_hazards.md R155): reset, a new program, step requests, and
the run loop it builds from them (40_execution_engine.md R80). -/

namespace Sys2Proof.Machine

/-- The reset request (70_reset_and_hazards.md R150), allowed in any state between steps: the state and the trap output go
to their reset values (decision D17); the program and the capacity are no state and stay (R151). -/
def resetRequest (s : State) : State :=
  { s with stack := State.reset.stack, ip := State.reset.ip, halted := State.reset.halted, trap := State.reset.trap }

/-- The driver presents a program and its length (70_reset_and_hazards.md R153 (2)). -/
def presentProgram (p : Program) (s : State) : State := { s with prog := p }

/-- A core of capacity `c` after reset, with the program `p` presented. -/
def fresh (p : Program) (c : Nat) : State := { State.reset with prog := p, capacity := c }

/-- The driver's requests. The program changes only together with a reset: a change during a run is outside the spec
(70_reset_and_hazards.md R154, decision D19, log 14). -/
inductive Request where
  /-- One step (40_execution_engine.md R71 `step_req`). -/
  | step
  /-- Reset, the program kept (70_reset_and_hazards.md R150). -/
  | reset
  /-- Reset with another program for the new run (70_reset_and_hazards.md R151, R153). -/
  | newRun (p : Program)
deriving DecidableEq, Repr

/-- Serving one request. -/
def serve (r : Request) (s : State) : Result :=
  match r with
  | .step => step s
  | .reset => .next (resetRequest s)
  | .newRun p => .next (resetRequest (presentProgram p s))

/-- Serving requests one after another. -/
def serveAll : List Request → State → Result
  | [], s => .next s
  | r :: rs, s =>
    match serve r s with
    | .next t => serveAll rs t
    | .fault f => .fault f
    | .refused f => .refused f

/-- How a run stands after at most `fuel` steps (40_execution_engine.md R81). -/
inductive RunResult where
  /-- The run ended with HALTED and OK; the final state. -/
  | halted (s : State)
  /-- The run ended with TRAPPED and the trap; the final state. -/
  | trapped (t : Trap) (s : State)
  /-- The fuel is spent and the run has not ended: its own outcome, neither of the two (R81). -/
  | outOfFuel (s : State)
  /-- A step had no meaning; no step of this core is refused. -/
  | refused (r : Refusal)
deriving DecidableEq, Repr

/-- The run loop (40_execution_engine.md R80), under fuel, which is the model's own (log 16). -/
def runLoop : Nat → State → RunResult
  | 0, s => if s.halted then .halted s else .outOfFuel s
  | n + 1, s =>
    if s.halted then .halted s
    else
      match step s with
      | .next t => if t.trap = .ok then runLoop n t else .trapped t.trap t
      | .fault f => nomatch f
      | .refused r => .refused r

/-- Executing instructions one after another, each as `exec` gives it, for the properties the source states of sequences
of instructions (41_push.md R90 (c)). -/
def execAll : List Instr → State → Result
  | [], s => .next s
  | i :: is, s =>
    match exec i s with
    | .next t => execAll is t
    | .fault f => .fault f
    | .refused f => .refused f

end Sys2Proof.Machine
end

