-- ==== Sys2Proof/Machine/Listing.lean ====
section
/-! DEFINITION. The written form of instructions and programs (30_encoding.md R60). -/

namespace Sys2Proof

/-- An instruction in a listing: the mnemonic and, for PUSH and JMP, a space and the operand as a signed decimal integer
(30_encoding.md R60). -/
def Instr.listing : Instr → String
  | .push v => "PUSH " ++ toString v.toInt
  | .plus => "PLUS"
  | .minus => "MINUS"
  | .mult => "MULT"
  | .div => "DIV"
  | .jmp t => "JMP " ++ toString t.toInt
  | .halt => "HALT"

/-- The canonical words a listing of instructions means, in index order (30_encoding.md R59, R60). -/
def assemble (is : List Instr) : Program := is.map encode

/-- A program as a listing: bracketed, comma-separated, in index order (30_encoding.md R60). -/
def listProgram (is : List Instr) : String := "[" ++ ", ".intercalate (is.map Instr.listing) ++ "]"

end Sys2Proof
end

