-- ==== Sys2Proof/Machine/Ports.lean ====
section
/-! DEFINITION. The interface of the block at the level of its ports (40_execution_engine.md R71; the signal list is
the spec's illustration, decision D14). -/

namespace Sys2Proof.Machine

/-- SIZEW: the bit length of `C`, the smallest width that holds the value `C` (00_scope.md R5, decision D11). -/
def sizeWidth (c : Nat) : Nat := if c = 0 then 0 else c.log2 + 1

/-- The `size` output, SIZEW bits wide. -/
def sizePort (s : State) : BitVec (sizeWidth s.capacity) := BitVec.ofNat _ s.size

/-- The `fetch_index` output: it equals `ip`. -/
def fetchIndex (s : State) : InstrIndex := s.ip

/-- The `trap` output (10_state.md R18). -/
def trapPort (s : State) : BitVec 3 := s.trap.code

/-- The `dbg_value` output for the cell that `dbg_index` names: unspecified, so absent, at and above `size` (log 4). -/
def dbgValue (s : State) (dbgIndex : Nat) : Option Value := s.cell dbgIndex

/-- The outputs of the block. -/
structure Outputs (sizew : Nat) where
  fetchIndex : InstrIndex
  trap : BitVec 3
  halted : Bool
  size : BitVec sizew
  dbgValue : Option Value
deriving DecidableEq, Repr

/-- All that the driver may read between two steps (60_exceptions.md R141); reading is a function of the state and changes
nothing. -/
def outputs (s : State) (dbgIndex : BitVec (sizeWidth s.capacity)) : Outputs (sizeWidth s.capacity) where
  fetchIndex := fetchIndex s
  trap := trapPort s
  halted := s.halted
  size := sizePort s
  dbgValue := dbgValue s dbgIndex.toNat

/-- A step as the block sees it: the length and the fetched word come from the driver on `prog_len` and `fetch_word`, and
`fetch_word` is looked at only where `fetch_index` is in range and the machine is not halted. -/
def portStep (progLen : BitVec 64) (fetchWord : InstrWord) (s : State) : Result :=
  if s.halted then haltedStep s
  else if uint (fetchIndex s) < uint progLen then runWord fetchWord s
  else fetchTrap s

end Sys2Proof.Machine
end

