-- ==== Sys2Proof/Safety.lean ====
section
/-! DEFINITION. The terms in which claims speak of states and runs. -/

namespace Sys2Proof.Machine

/-- The bounds of the state: `0 <= size <= C` (10_state.md R13) and `PROG_LEN < 2^63` (00_scope.md R5). -/
abbrev State.wf (s : State) : Prop := s.size ≤ s.capacity ∧ Program.wf s.prog

/-- The step in `s` executes the instruction `i`: the machine is not halted, and the word at `ip` is in range and decodes to
`i` (40_execution_engine.md R72). -/
structure Executes (s : State) (i : Instr) : Prop where
  running : s.halted = false
  word : (fetch s).map decode = some (.instr i)

/-- The step in `s` meets an illegal word with opcode `opc` (40_execution_engine.md R75). -/
structure MeetsIllegal (s : State) (opc : Opcode) : Prop where
  running : s.halted = false
  word : (fetch s).map decode = some (.illegal opc)

/-- The binary operations (00_scope.md R8). -/
def binaryInstrs : List Instr := [.plus, .minus, .mult, .div]

/-- Everything of the machine but its trap output is the same in `s` and `t` (40_execution_engine.md R76). -/
structure SameMachine (s t : State) : Prop where
  stack : t.stack = s.stack
  ip : t.ip = s.ip
  halted : t.halted = s.halted
  prog : t.prog = s.prog
  capacity : t.capacity = s.capacity

/-- The step raised `tr`: it returned `tr` and wrote nothing (40_execution_engine.md R76). -/
structure Raised (tr : Trap) (s t : State) : Prop where
  trap : t.trap = tr
  same : SameMachine s t

/-- The success of a binary operation with result `r`, everything it changes and everything it leaves (42_arithmetic.md
R95): `r` in the left operand's cell, `size` one less, the cells below untouched, `ip` one more, no other change. -/
structure BinaryEffect (r : Value) (s t : State) : Prop where
  result : t.cell (s.size - 2) = some r
  size : t.size = s.size - 1
  below : ∀ i, i < s.size - 2 → t.cell i = s.cell i
  ip : t.ip = s.ip + 1
  halted : t.halted = s.halted
  trap : t.trap = .ok
  prog : t.prog = s.prog
  capacity : t.capacity = s.capacity

/-- A sequence of states in which each is the step of the one before, for the first `n` steps. -/
def StepSequence (f : Nat → State) (n : Nat) : Prop := ∀ k, k < n → step (f k) = .next (f (k + 1))

/-- The first `n` steps of the sequence return OK. -/
def AllOk (f : Nat → State) (n : Nat) : Prop := ∀ k, k < n → (f (k + 1)).trap = .ok

/-- `ip` is within the program or one past its end, or is the operand of a JMP of the program (10_state.md R22 (d)). -/
def IpJustified (s : State) : Prop :=
  uint s.ip ≤ s.progLen ∨ ∃ w t, w ∈ s.prog ∧ decode w = .instr (.jmp t) ∧ s.ip = t

/-- The driver keeps its bound on program lengths (00_scope.md R5) in a request. -/
def Request.wf : Request → Prop
  | .step => True
  | .reset => True
  | .newRun p => Program.wf p

/-- `s` is reached by a core of some capacity, made fresh with some program, under some requests of the driver. -/
def Reachable (s : State) : Prop :=
  ∃ p c rs, Program.wf p ∧ (∀ r, r ∈ rs → Request.wf r) ∧ serveAll rs (fresh p c) = .next s

end Sys2Proof.Machine
end

