-- ==== Sys2Proof/Certificates/Slice0/Obligations.lean ====
section
/-! DEFINITION. The statements for the provers. Each docstring names the rule of spec/ it formalises, and every decision
of the spec (D<n> of 92_eei_decisions.md) and log entry it rests on. -/

open Sys2Proof Sys2Proof.Machine

/-! ## Encoding -/

/-- 30_encoding.md R57 and R59, words of 95_test_vectors.md V-ENC; the numbers are decisions D1 and D2 (log 12). -/
def Obligations.SampleWordsDecode : Prop :=
  decode 0x000000000000000045#72 = .instr (.push 69#64) ∧
  decode 0x00FFFFFFFFFFFFFFFF#72 = .instr (.push (-1#64)) ∧
  decode 0x010000000000000000#72 = .instr .plus ∧
  decode 0x020000000000000000#72 = .instr .minus ∧
  decode 0x030000000000000000#72 = .instr .mult ∧
  decode 0x040000000000000000#72 = .instr .div ∧
  decode 0x050000000000000002#72 = .instr (.jmp 2#64) ∧
  decode 0x06FFFFFFFFFFFFFFFF#72 = .instr .halt ∧
  decode 0x070000000000000000#72 = .illegal 0x07#8 ∧
  decode 0xFF0000000000003039#72 = .illegal 0xFF#8

/-- 30_encoding.md R57, R58, R59: decoding undoes encoding, and encoding what a word decodes to gives the word back with
an ignored operand set to zero (decisions D1, D2, D20; log 12). -/
def Obligations.DecodeAndEncodeAgree : Prop :=
  (∀ i : Instr, i.wf = true → decode (encode i) = .instr i) ∧
  (∀ (w : InstrWord) (i : Instr), decode w = .instr i →
    encode i = wordOf (opcodeField w) (if declaresOperand i then operandField w else 0#64))

/-- 30_encoding.md R55: every operand of an opcode that declares none is legal, none traps for its sake and none changes the
result; the operand of an illegal opcode plays no part; the canonical operand is zero (decision D20; log 12). -/
def Obligations.IgnoredOperandHasNoEffect : Prop :=
  (∀ (i : Instr) (opd : Value) (s : State), declaresOperand i = false →
    decode (wordOf (opcodeOf i) opd) = .instr i ∧ runWord (wordOf (opcodeOf i) opd) s = exec i s ∧
      operandField (encode i) = 0#64) ∧
  (∀ (opc : Opcode) (opd : Value) (s : State), 6 < opc.toNat →
    decode (wordOf opc opd) = .illegal opc ∧ runWord (wordOf opc opd) s = illegalTrap opc s)

/-- 30_encoding.md R62: a word is the instruction of a row of the table exactly when `w AND mask = match`, at most one row
covers a word, and a word that no row covers is illegal (decisions D1, D2; log 12). -/
def Obligations.OpcodeTableSelectsTheInstruction : Prop :=
  ∀ w : InstrWord,
    (∀ row, row ∈ opcodeTable →
      (row.covers w = true ↔ ∃ i : Instr, decode w = .instr i ∧ i.mnemonic = row.mnemonic)) ∧
    (∀ r₁ r₂, r₁ ∈ opcodeTable → r₂ ∈ opcodeTable → r₁.covers w = true → r₂.covers w = true → r₁ = r₂) ∧
    ((∀ row, row ∈ opcodeTable → row.covers w = false) ↔ decode w = .illegal (opcodeField w))

/-! ## The step -/

/-- 40_execution_engine.md R72: a running machine whose word at `ip` decodes to an instruction executes it. -/
def Obligations.StepRunsTheDecodedInstruction : Prop :=
  ∀ (s : State) (w : InstrWord) (i : Instr), s.halted = false → uint s.ip < s.progLen →
    s.prog[uint s.ip]? = some w → decode w = .instr i → step s = exec i s

/-- The model's convention for placing a word where the next step fetches (log 8), beside 40_execution_engine.md R72. -/
def Obligations.PlacedWordRunsNext : Prop :=
  ∀ (s : State) (nbits w : Nat) (i : Instr), decodeTableWord nbits w = some i →
    step (s.withFetchWord nbits w) = exec i (s.withFetchWord nbits w)

/-- 40_execution_engine.md R73: a step on a halted machine fetches nothing, checks nothing, returns OK and changes
nothing. -/
def Obligations.HaltedStepChangesNothing : Prop :=
  ∀ s : State, s.halted = true →
    accesses s = Access.none ∧ ∃ t, step s = .next t ∧ t.trap = .ok ∧ SameMachine s t

/-- 40_execution_engine.md R74, 60_exceptions.md R126, decisions D8 and D21 (log 10). -/
def Obligations.FetchOutsideTheProgramTraps : Prop :=
  ∀ s : State, s.halted = false → s.progLen ≤ uint s.ip →
    accesses s = Access.none ∧ ∃ t, step s = .next t ∧ Raised .outOfBoundsFetch s t

/-- 40_execution_engine.md R75, 60_exceptions.md R124: an illegal opcode raises ILLEGAL_INST whatever the stack and the
operand are, before anything but the word is read; the state is unchanged, `ip` still names the illegal word. -/
def Obligations.IllegalOpcodeTraps : Prop :=
  ∀ (s : State) (w : InstrWord), s.halted = false → fetch s = some w → 6 < (opcodeField w).toNat →
    accesses s = ⟨[uint s.ip], [], []⟩ ∧ ∃ t, step s = .next t ∧ Raised .illegalInst s t

/-- 40_execution_engine.md R72, R79, 70_reset_and_hazards.md R163: in every state, whether a run reaches it or not, the step
answers exactly one next state; and so does every instruction. -/
def Obligations.EveryStepAnswersOneNextState : Prop :=
  (∀ s : State, ∃! t, step s = .next t) ∧ (∀ (i : Instr) (s : State), ∃! t, exec i s = .next t)

/-- 60_exceptions.md R120, R130: which trap a step returns, by its condition on the state before the step (decisions D8,
D21; log 10). -/
def Obligations.EachTrapHasItsCondition : Prop :=
  ∀ s t : State, step s = .next t →
    (t.trap = .outOfBoundsFetch ↔ s.halted = false ∧ s.progLen ≤ uint s.ip) ∧
    (t.trap = .illegalInst ↔ ∃ opc, MeetsIllegal s opc) ∧
    (t.trap = .stackOverflow ↔ ∃ v, Executes s (.push v) ∧ s.size = s.capacity) ∧
    (t.trap = .stackUnderflow ↔ ∃ i, i ∈ binaryInstrs ∧ Executes s i ∧ s.size < 2) ∧
    (t.trap = .divisionByZero ↔ Executes s .div ∧ 2 ≤ s.size ∧ s.cell (s.size - 1) = some 0#64)

/-- 40_execution_engine.md R76, R82, 10_state.md R22 (e): a step that returns a trap other than OK writes nothing, and a
further step returns the same trap (decisions D9, D18; log 11). -/
def Obligations.TrappingStepWritesNothingAndRepeats : Prop :=
  ∀ s t : State, step s = .next t → t.trap ≠ .ok → SameMachine s t ∧ step t = .next t

/-- 10_state.md R18: no step reads the trap output: what a step does depends on `stack`, `size`, `ip`, `halted` and the
parameters only (decisions D14, D18; log 5). -/
def Obligations.NoStepReadsTheTrapOutput : Prop :=
  ∀ s u : State, SameMachine s u → step u = step s ∧ accesses u = accesses s

/-- 20_memory.md R31: the program is read once per step that gets as far as fetching, at `uint(ip)`, never out of range,
never on a halted machine, and is never written. -/
def Obligations.ProgramIsReadOnceAndNeverWritten : Prop :=
  ∀ s t : State, step s = .next t →
    t.prog = s.prog ∧
    (s.halted = true → (accesses s).programReads = []) ∧
    (s.halted = false → uint s.ip < s.progLen →
      (accesses s).programReads = [uint s.ip] ∧ ∃ w, s.prog[uint s.ip]? = some w ∧ step s = runWord w s) ∧
    (s.halted = false → s.progLen ≤ uint s.ip → (accesses s).programReads = [] ∧ t.trap ≠ .ok)

/-- 10_state.md R19, 70_reset_and_hazards.md R151: no request of the driver changes the capacity, and only a new run changes
the program (decision D19; logs 13, 14). -/
def Obligations.ParametersChangeOnlyWithANewRun : Prop :=
  ∀ (r : Request) (s t : State), serve r s = .next t →
    t.capacity = s.capacity ∧ ((∀ p, r ≠ .newRun p) → t.prog = s.prog) ∧ (∀ p, r = .newRun p → t.prog = p)

/-! ## The instructions -/

/-- 41_push.md R90: PUSH stores all 64 bits in a new top cell, reads no stack cell, and raises STACK_OVERFLOW exactly when
`size = C`; its frame; and the source's property (c): from an empty stack, `C` pushes fill it with their values and the
next PUSH overflows and changes nothing. -/
def Obligations.PushStoresItsOperand : Prop :=
  (∀ (v : Value) (s : State),
    encode (.push v) = wordOf 0x00#8 v ∧ decode (wordOf 0x00#8 v) = .instr (.push v) ∧
    (∀ k, (instrAccess (.push v) k s).stackReads = []) ∧
    (s.size = s.capacity → ∃ t, exec (.push v) s = .next t ∧ Raised .stackOverflow s t) ∧
    (s.size ≠ s.capacity → ∃ t, exec (.push v) s = .next t ∧ t.trap = .ok ∧
      t.cell s.size = some v ∧ t.size = s.size + 1 ∧ (∀ i, i < s.size → t.cell i = s.cell i) ∧
      t.ip = s.ip + 1 ∧ t.halted = s.halted ∧ t.prog = s.prog ∧ t.capacity = s.capacity)) ∧
  (∀ (vs : List Value) (v : Value) (s : State), s.stack = [] → vs.length = s.capacity →
    ∃ t, execAll (vs.map Instr.push) s = .next t ∧ t.stack = vs ∧ t.size = s.capacity ∧ (vs ≠ [] → t.trap = .ok) ∧
      ∃ u, exec (.push v) t = .next u ∧ Raised .stackOverflow t u)

/-- 42_arithmetic.md R95, R96: PLUS on two values completes with the sum modulo 2^64; its frame. The wrap-around is
decision D5 (log 9). -/
def Obligations.PlusLeavesTheSum : Prop :=
  ∀ (s : State) (a b : Value), 2 ≤ s.size → s.cell (s.size - 2) = some a → s.cell (s.size - 1) = some b →
    ∃ t r, exec .plus s = .next t ∧ (uint r : Int) = (sint a + sint b) % 2 ^ 64 ∧ BinaryEffect r s t

/-- 42_arithmetic.md R95, R97: MINUS on two values completes with left minus right modulo 2^64; its frame. The wrap-around
is decision D5 (log 9). -/
def Obligations.MinusLeavesTheDifference : Prop :=
  ∀ (s : State) (a b : Value), 2 ≤ s.size → s.cell (s.size - 2) = some a → s.cell (s.size - 1) = some b →
    ∃ t r, exec .minus s = .next t ∧ (uint r : Int) = (sint a - sint b) % 2 ^ 64 ∧ BinaryEffect r s t

/-- 42_arithmetic.md R95, R98: MULT on two values completes with the product modulo 2^64, the same for the unsigned
reading of the operands; its frame. The wrap-around is decision D5 (log 9). -/
def Obligations.MultLeavesTheLowProduct : Prop :=
  ∀ (s : State) (a b : Value), 2 ≤ s.size → s.cell (s.size - 2) = some a → s.cell (s.size - 1) = some b →
    ∃ t r, exec .mult s = .next t ∧ (uint r : Int) = (sint a * sint b) % 2 ^ 64 ∧
      (uint r : Int) = ((uint a : Int) * (uint b : Int)) % 2 ^ 64 ∧ BinaryEffect r s t

/-- 42_arithmetic.md R95, R99: DIV on two values with a divisor other than zero completes with the quotient truncated
toward zero, and with INT64_MIN where the exact quotient is 2^63 (decision D6; log 9); its frame. -/
def Obligations.DivLeavesTheTruncatedQuotient : Prop :=
  ∀ (s : State) (a b : Value), 2 ≤ s.size → s.cell (s.size - 2) = some a → s.cell (s.size - 1) = some b →
    sint b ≠ 0 →
    ∃ t r, exec .div s = .next t ∧ BinaryEffect r s t ∧
      (a = int64Min ∧ sint b = -1 → r = int64Min) ∧
      (¬ (a = int64Min ∧ sint b = -1) → sint r = Int.tdiv (sint a) (sint b))

/-- 60_exceptions.md R122: STACK_OVERFLOW is raised by PUSH alone, when `size = C`, and the state is unchanged. -/
def Obligations.OverflowIsRaisedByPushAlone : Prop :=
  (∀ (v : Value) (s : State), Executes s (.push v) → s.size = s.capacity →
    ∃ t, step s = .next t ∧ Raised .stackOverflow s t) ∧
  (∀ s t : State, step s = .next t → t.trap = .stackOverflow →
    (∃ v, Executes s (.push v)) ∧ s.size = s.capacity ∧ (accesses s).stackWrites = [])

/-- 60_exceptions.md R123: STACK_UNDERFLOW is raised by the four binary operations alone, when `size` is 0 or 1, before any
read of the stack, and the state is unchanged. -/
def Obligations.UnderflowIsRaisedByBinaryOperationsAlone : Prop :=
  (∀ (i : Instr) (s : State), i ∈ binaryInstrs → s.size < 2 → ∃ t, exec i s = .next t ∧ Raised .stackUnderflow s t) ∧
  (∀ s t : State, step s = .next t → t.trap = .stackUnderflow →
    (∃ i, i ∈ binaryInstrs ∧ Executes s i) ∧ s.size < 2 ∧ (accesses s).stackReads = [] ∧ SameMachine s t)

/-- 60_exceptions.md R125: DIVISION_BY_ZERO is raised by DIV alone, when two values are there and the top is zero, and in
no other case; with fewer than two values it is STACK_UNDERFLOW; the state is unchanged, both operands stay. -/
def Obligations.DivisionByZeroIsRaisedByDivAlone : Prop :=
  (∀ s : State, 2 ≤ s.size → s.cell (s.size - 1) = some 0#64 →
    ∃ t, exec .div s = .next t ∧ Raised .divisionByZero s t) ∧
  (∀ s : State, s.size < 2 → ∃ t, exec .div s = .next t ∧ Raised .stackUnderflow s t) ∧
  (∀ s t : State, step s = .next t → t.trap = .divisionByZero →
    Executes s .div ∧ 2 ≤ s.size ∧ s.cell (s.size - 1) = some 0#64 ∧ SameMachine s t)

/-- 40_execution_engine.md R77: what each opcode needs, and that DIV checks `size >= 2` before the divisor. The premise
`size <= C` is the invariant of `BoundsOfTheStateAreKept`. -/
def Obligations.EachOpcodeHasItsPrecondition : Prop :=
  ∀ s : State, s.size ≤ s.capacity →
    (∀ v, (∃ t, exec (.push v) s = .next t ∧ t.trap = .ok) ↔ s.size < s.capacity) ∧
    (∀ i, i ∈ [Instr.plus, Instr.minus, Instr.mult] → ((∃ t, exec i s = .next t ∧ t.trap = .ok) ↔ 2 ≤ s.size)) ∧
    ((∃ t, exec .div s = .next t ∧ t.trap = .ok) ↔ 2 ≤ s.size ∧ s.cell (s.size - 1) ≠ some 0#64) ∧
    (∀ x, ∃ t, exec (.jmp x) s = .next t ∧ t.trap = .ok) ∧
    (∃ t, exec .halt s = .next t ∧ t.trap = .ok) ∧
    (s.size < 2 → ∃ t, exec .div s = .next t ∧ t.trap = .stackUnderflow)

/-- 43_control.md R110: JMP copies all 64 operand bits to `ip` whatever `ip` was, always returns OK, and changes nothing
else; the next step fetches `P[t]`; a JMP to its own index changes no state. -/
def Obligations.JmpSetsIpToItsOperand : Prop :=
  ∀ (x : InstrIndex) (s : State),
    encode (.jmp x) = wordOf 0x05#8 x ∧ decode (wordOf 0x05#8 x) = .instr (.jmp x) ∧
    ∃ t, exec (.jmp x) s = .next t ∧ t.ip = x ∧ t.trap = .ok ∧ t.stack = s.stack ∧ t.halted = s.halted ∧
      t.prog = s.prog ∧ t.capacity = s.capacity ∧ fetch t = s.prog[uint x]? ∧ (x = s.ip → SameMachine s t)

/-- 43_control.md R112: HALT sets `halted`, advances `ip` (90_conflicts.md C2, decision D10; log 11), always returns OK,
leaves the stack, and every later step changes nothing. The fuel of the run loop is the model's (log 16). -/
def Obligations.HaltStopsTheMachine : Prop :=
  ∀ (opd : Value) (s : State), decode (wordOf 0x06#8 opd) = .instr .halt ∧
    ∃ t, exec .halt s = .next t ∧ t.halted = true ∧ t.ip = s.ip + 1 ∧ t.trap = .ok ∧ t.stack = s.stack ∧
      t.prog = s.prog ∧ t.capacity = s.capacity ∧ step t = .next t ∧
      (∀ n, runLoop n t = .halted t) ∧ (resetRequest t).halted = false

/-! ## Arithmetic -/

/-- 42_arithmetic.md R101, the whole table: each operation's result as a signed number, in range and out of range
(decisions D5, D6; log 9). -/
def Obligations.ArithmeticResultTable : Prop :=
  ∀ a b : Value,
    (sint (plusValue a b) =
      if sint a + sint b ≥ 2 ^ 63 then sint a + sint b - 2 ^ 64
      else if sint a + sint b < -2 ^ 63 then sint a + sint b + 2 ^ 64 else sint a + sint b) ∧
    (sint (minusValue a b) =
      if sint a - sint b ≥ 2 ^ 63 then sint a - sint b - 2 ^ 64
      else if sint a - sint b < -2 ^ 63 then sint a - sint b + 2 ^ 64 else sint a - sint b) ∧
    (-2 ^ 63 ≤ sint (multValue a b) ∧ sint (multValue a b) < 2 ^ 63 ∧
      (2 ^ 64 : Int) ∣ sint (multValue a b) - sint a * sint b) ∧
    (sint b ≠ 0 → sint (divValue a b) =
      if sint a = -2 ^ 63 ∧ sint b = -1 then -2 ^ 63 else tdiv (sint a) (sint b))

/-- 42_arithmetic.md R101, without the spec's decisions on overflow: a result that fits 64 signed bits is exact. -/
def Obligations.ResultsThatFitAreExact : Prop :=
  ∀ a b : Value,
    (-2 ^ 63 ≤ sint a + sint b → sint a + sint b < 2 ^ 63 → sint (plusValue a b) = sint a + sint b) ∧
    (-2 ^ 63 ≤ sint a - sint b → sint a - sint b < 2 ^ 63 → sint (minusValue a b) = sint a - sint b) ∧
    (-2 ^ 63 ≤ sint a * sint b → sint a * sint b < 2 ^ 63 → sint (multValue a b) = sint a * sint b) ∧
    (sint b ≠ 0 → tdiv (sint a) (sint b) < 2 ^ 63 → sint (divValue a b) = tdiv (sint a) (sint b))

/-- 42_arithmetic.md R101: the quotient has the stated sign and the floor of the magnitudes' quotient as its magnitude, and
the implied remainder is zero or has the sign of the dividend, smaller than the divisor in magnitude. -/
def Obligations.DivisionTruncatesTowardZero : Prop :=
  ∀ x y : Int, y ≠ 0 →
    (tdiv x y).natAbs = x.natAbs / y.natAbs ∧
    (x = 0 ∨ (0 < x ↔ 0 < y) → 0 ≤ tdiv x y) ∧ (x ≠ 0 → ¬ (0 < x ↔ 0 < y) → tdiv x y ≤ 0) ∧
    (x - y * tdiv x y).natAbs < y.natAbs ∧ (0 ≤ x → 0 ≤ x - y * tdiv x y) ∧ (x ≤ 0 → x - y * tdiv x y ≤ 0)

/-- 42_arithmetic.md R96 to R99 against two's complement hardware: the exact-then-wrap functions are the 64-bit adder,
subtractor, low half of the multiplier and signed divider (decisions D4, D5, D6; log 9). -/
def Obligations.ArithmeticIsTwosComplement : Prop :=
  ∀ a b : Value, plusValue a b = a + b ∧ minusValue a b = a - b ∧ multValue a b = a * b ∧
    (sint b ≠ 0 → divValue a b = a.sdiv b)

/-! ## The whole machine -/

/-- 10_state.md R23, 70_reset_and_hazards.md R150: a reset in any state (decision D17; log 13). -/
def Obligations.ResetValues : Prop :=
  ∀ s : State, (resetRequest s).size = 0 ∧ (resetRequest s).ip = 0 ∧ (resetRequest s).halted = false ∧
    trapPort (resetRequest s) = 0 ∧ (resetRequest s).prog = s.prog ∧ (resetRequest s).capacity = s.capacity ∧
    serve .reset s = .next (resetRequest s) ∧
    State.reset.size = 0 ∧ State.reset.ip = 0 ∧ State.reset.halted = false ∧ trapPort State.reset = 0

/-- 70_reset_and_hazards.md R151: nothing of the old run survives a reset. Two clauses are the model's form of it: that a
cell reads as no value after reset, where the spec leaves its content unspecified (DEDUCED, log 4); and that a new run is
one request, the program presented together with the reset, which keeps the capacity (DEDUCED, log 13). -/
def Obligations.NothingSurvivesReset : Prop :=
  (∀ s u : State, s.prog = u.prog → s.capacity = u.capacity → resetRequest s = resetRequest u) ∧
  (∀ (s : State) (i : Nat), (resetRequest s).cell i = none) ∧
  (∀ (p : Program) (s : State), serve (.newRun p) s = .next (fresh p s.capacity))

/-- 70_reset_and_hazards.md R152: after reset the first step fetches `P[0]`. -/
def Obligations.FirstStepAfterResetFetchesIndexZero : Prop :=
  ∀ (p : Program) (w : InstrWord) (s : State),
    fetchIndex (resetRequest s) = 0 ∧
    (p[0]? = some w → fetch (resetRequest (presentProgram p s)) = some w ∧
      step (resetRequest (presentProgram p s)) = runWord w (resetRequest (presentProgram p s)))

/-- The reset state meets the bounds of the state (10_state.md R13, 00_scope.md R5; the reset program and capacity are the
model's choice, logs 1 and 2). -/
def Obligations.ResetMeetsTheBounds : Prop := State.reset.wf ∧ IpJustified State.reset

/-- 10_state.md R13, R22 (a), 00_scope.md R5: every step, and every request the driver may make, keeps
`size <= C` and `PROG_LEN < 2^63`, from every state that has them. -/
def Obligations.BoundsOfTheStateAreKept : Prop :=
  (∀ s t : State, s.wf → step s = .next t → t.wf) ∧
  (∀ (r : Request) (s t : State), r.wf → s.wf → serve r s = .next t → t.wf)

/-- 10_state.md R13: how a step changes `size`: a successful PUSH adds one, a successful binary operation takes one away,
every other step leaves it. -/
def Obligations.OnlyPushAndBinaryOperationsChangeSize : Prop :=
  ∀ s t : State, step s = .next t →
    (∀ v, Executes s (.push v) → t.trap = .ok → t.size = s.size + 1) ∧
    (∀ i, i ∈ binaryInstrs → Executes s i → t.trap = .ok → t.size + 1 = s.size) ∧
    (t.size ≠ s.size → t.trap = .ok ∧ ((∃ v, Executes s (.push v)) ∨ ∃ i, i ∈ binaryInstrs ∧ Executes s i))

/-- 10_state.md R15, 40_execution_engine.md R78: how each step changes `ip`, and that `ip + 1` never wraps where
`PROG_LEN < 2^63` (conflict resolutions C2, C3; decisions D9, D10; log 11). -/
def Obligations.HowEachStepChangesIp : Prop :=
  ∀ s t : State, step s = .next t →
    (s.halted = true → t.ip = s.ip) ∧
    (t.trap ≠ .ok → t.ip = s.ip) ∧
    (∀ x, Executes s (.jmp x) → t.ip = x) ∧
    (∀ i, Executes s i → (∀ x, i ≠ .jmp x) → t.trap = .ok →
      t.ip = s.ip + 1 ∧ (Program.wf s.prog → uint t.ip = uint s.ip + 1 ∧ uint t.ip ≤ s.progLen))

/-- 10_state.md R16: `halted` is false after reset, set by HALT and by nothing else, never cleared by a step; while it is
true a step returns OK and changes no state, and the run loop stops. -/
def Obligations.HaltedIsSetByHaltAlone : Prop :=
  (∀ s : State, (resetRequest s).halted = false) ∧
  (∀ s t : State, step s = .next t → (t.halted = true ↔ s.halted = true ∨ Executes s .halt)) ∧
  (∀ s t : State, step s = .next t → s.halted = true → t.trap = .ok ∧ SameMachine s t) ∧
  (∀ (s : State) (n : Nat), s.halted = true → runLoop n s = .halted s)

/-- 10_state.md R22 (d): `ip` is at most `PROG_LEN` or the operand of a JMP of the program; every request keeps this. -/
def Obligations.IpStaysJustified : Prop :=
  (∀ s t : State, s.wf → IpJustified s → step s = .next t → IpJustified t) ∧
  (∀ (r : Request) (s t : State), s.wf → IpJustified s → serve r s = .next t → IpJustified t)

/-- 10_state.md R22: in every state that a core reaches under any requests of the driver, the bounds hold, `ip` is justified,
and a state whose last step trapped is not halted and steps to itself. A statement about reachable states; the step lemmas
beside it are `BoundsOfTheStateAreKept`, `IpStaysJustified` and `TrappingStepWritesNothingAndRepeats`. -/
def Obligations.ReachableStatesAreSound : Prop :=
  ∀ s : State, Reachable s → s.wf ∧ IpJustified s ∧ (s.trap ≠ .ok → s.halted = false ∧ step s = .next s)

/-- 70_reset_and_hazards.md R153, R154: under the driver's boot requirements `ip` never leaves 0 .. PROG_LEN, and the only
fetch that traps is the one past the last instruction (decision D8; log 10). -/
def Obligations.BootableProgramsStayInside : Prop :=
  ∀ s t : State, bootable s.prog = true → uint s.ip ≤ s.progLen → step s = .next t →
    uint t.ip ≤ t.progLen ∧ bootable t.prog = true ∧ (t.trap = .outOfBoundsFetch → uint s.ip = s.progLen)

/-- 41_push.md R91: a program cannot empty a stack. -/
def Obligations.StackOnceNonemptyStaysNonempty : Prop :=
  ∀ (f : Nat → State) (n : Nat), StepSequence f n → 1 ≤ (f 0).size → ∀ k, k ≤ n → 1 ≤ (f k).size

/-- 10_state.md R22 (c): from reset, while no HALT and no JMP has been executed, `ip` is the number of OK steps taken, at most
`PROG_LEN`. -/
def Obligations.IpCountsTheOkSteps : Prop :=
  ∀ (f : Nat → State) (n : Nat), StepSequence f n → f 0 = resetRequest (f 0) → Program.wf (f 0).prog →
    (f n).halted = false → (∀ k, k < n → ∀ x, ¬ Executes (f k) (.jmp x)) →
    uint (f n).ip ≤ (f n).progLen ∧
    uint (f n).ip = (List.range n).countP (fun k => decide ((f (k + 1)).trap = .ok))

/-- 43_control.md R114: the path of a run does not depend on any value: two machines with one program, one `ip` and one
`halted`, whatever their stacks and capacities, go the same way as long as both return OK. -/
def Obligations.PathDoesNotDependOnValues : Prop :=
  ∀ (f g : Nat → State) (n : Nat), StepSequence f n → StepSequence g n → AllOk f n → AllOk g n →
    (f 0).prog = (g 0).prog → (f 0).ip = (g 0).ip → (f 0).halted = (g 0).halted →
    ∀ k, k ≤ n → (f k).ip = (g k).ip ∧ (f k).halted = (g k).halted

/-- 43_control.md R114: a loop once entered is left only by a trap: a running machine that has come back to an index never
halts as long as its steps return OK. -/
def Obligations.LoopIsLeftOnlyByATrap : Prop :=
  ∀ (f : Nat → State) (m n : Nat), StepSequence f n → AllOk f n → 0 < m → m ≤ n →
    (f 0).ip = (f m).ip → (f m).halted = false → ∀ k, k ≤ n → (f k).halted = false

/-! ## The run -/

/-- The model's run loop does what 40_execution_engine.md R80 says, turn by turn. R80 has no fuel: that a run is given
fuel, and that each OK step takes one unit of it, is the model's choice (DESIGN CHOICE, log 16). -/
def Obligations.RunLoopFollowsItsDefinition : Prop :=
  (∀ (n : Nat) (s : State), s.halted = true → runLoop n s = .halted s) ∧
  (∀ (n : Nat) (s t : State), s.halted = false → step s = .next t → t.trap ≠ .ok →
    runLoop (n + 1) s = .trapped t.trap t) ∧
  (∀ (n : Nat) (s t : State), s.halted = false → step s = .next t → t.trap = .ok → runLoop (n + 1) s = runLoop n t)

/-- 40_execution_engine.md R81: a run that ends HALTED ends halted; one that ends TRAPPED ends not halted, with the trap that
its last step returned and returns again; the parameters are those it began with; no run ends otherwise. The
fuel `n` is the model's (log 16). -/
def Obligations.HowARunEnds : Prop :=
  ∀ (n : Nat) (s : State),
    (∀ t, runLoop n s = .halted t → t.halted = true ∧ t.prog = s.prog ∧ t.capacity = s.capacity ∧
      (s.halted = false → t.trap = .ok)) ∧
    (∀ tr t, runLoop n s = .trapped tr t → tr ≠ .ok ∧ t.trap = tr ∧ t.halted = false ∧ step t = .next t ∧
      t.prog = s.prog ∧ t.capacity = s.capacity) ∧
    (∀ r, runLoop n s ≠ .refused r)

/-- 40_execution_engine.md R81: an end of a run does not depend on the fuel (log 16). -/
def Obligations.MoreFuelDoesNotChangeAnEnd : Prop :=
  ∀ (n m : Nat) (s : State) (r : RunResult), runLoop n s = r → (∀ t, r ≠ .outOfFuel t) → runLoop (n + m) s = r

/-- 40_execution_engine.md R81 (c), 43_control.md R110 (a): a JMP to itself is a legal run without end, in which no step
changes the machine. The fuel of the run loop is the model's (log 16). -/
def Obligations.SelfJumpNeverEnds : Prop :=
  ∀ (s : State) (n : Nat), Executes s (.jmp s.ip) →
    runLoop (n + 1) s = .outOfFuel (s.withTrap .ok) ∧
    serveAll (List.replicate (n + 1) .step) s = .next (s.withTrap .ok)

/-! ## Ports and accesses -/

/-- 60_exceptions.md R120, R121: the numbers of the traps; codes 6 and 7 are never produced (decision D3; log 12). -/
def Obligations.TrapCodesAreAsListed : Prop :=
  Trap.ok.code = 0 ∧ Trap.stackOverflow.code = 1 ∧ Trap.stackUnderflow.code = 2 ∧ Trap.illegalInst.code = 3 ∧
  Trap.divisionByZero.code = 4 ∧ Trap.outOfBoundsFetch.code = 5 ∧
  (∀ tr : Trap, Trap.ofCode tr.code = some tr) ∧ (∀ s : State, trapPort s ≠ 6 ∧ trapPort s ≠ 7)

/-- 10_state.md R13, 00_scope.md R5: SIZEW is the smallest width that holds `C`, and within the invariant the `size` output
loses nothing (decision D11; log 18). -/
def Obligations.SizeOutputLosesNothing : Prop :=
  (∀ c w : Nat, c < 2 ^ sizeWidth c ∧ (c < 2 ^ w → sizeWidth c ≤ w)) ∧ sizeWidth 1028 = 11 ∧
  (∀ s : State, s.size ≤ s.capacity → (sizePort s).toNat = s.size)

/-- 10_state.md R12, 40_execution_engine.md R71 `dbg_value`: a cell has a value exactly below `size` (log 4). -/
def Obligations.CellsAboveSizeHaveNoValue : Prop :=
  ∀ (s : State) (i : Nat), (dbgValue s i = none ↔ s.size ≤ i) ∧
    (∀ r t, BinaryEffect r s t → 2 ≤ s.size → dbgValue t (s.size - 1) = none)

/-- 40_execution_engine.md R71: a block whose driver answers `prog_len` and, in range, `fetch_word` as it must, does the step
of R72 (decision D14). -/
def Obligations.BlockWithItsPortsDoesTheStep : Prop :=
  ∀ (s : State) (progLen : BitVec 64) (fetchWord : InstrWord), uint progLen = s.progLen →
    (uint (fetchIndex s) < uint progLen → s.prog[uint (fetchIndex s)]? = some fetchWord) →
    portStep progLen fetchWord s = step s

/-- 20_memory.md R33: every stack access is validated: a read is of a cell below `size`, a write of a cell below `C`. -/
def Obligations.StackAccessesAreInBounds : Prop :=
  ∀ s : State, s.size ≤ s.capacity →
    (∀ i, i ∈ (accesses s).stackReads → i < s.size) ∧ (∀ i, i ∈ (accesses s).stackWrites → i < s.capacity) ∧
    (∀ t, step s = .next t → t.trap = .stackOverflow ∨ t.trap = .stackUnderflow →
      (accesses s).stackReads = [] ∧ (accesses s).stackWrites = [])

/-- 20_memory.md R36: a step changes no cell but those the table lists as written. -/
def Obligations.StepWritesOnlyTheListedCells : Prop :=
  ∀ s t : State, step s = .next t → ∀ i, i < t.size → i ∉ (accesses s).stackWrites → t.cell i = s.cell i

/-- 20_memory.md R36: a step reads no cell but those the table lists as read: two machines that agree on everything else and
on those cells return the same trap, the same `size`, `ip` and `halted`, and the same values in the written cells. For DIV with a
zero divisor the cells listed as read are both operands, which is the model's choice (DESIGN CHOICE, log 17): R36 lets it
read the divisor alone. -/
def Obligations.StepReadsOnlyTheListedCells : Prop :=
  ∀ s u s' u' : State, s.ip = u.ip → s.halted = u.halted → s.prog = u.prog → s.capacity = u.capacity →
    s.size = u.size → (∀ i, i ∈ (accesses s).stackReads → s.cell i = u.cell i) →
    step s = .next s' → step u = .next u' →
    s'.trap = u'.trap ∧ s'.size = u'.size ∧ s'.ip = u'.ip ∧ s'.halted = u'.halted ∧
    (∀ i, i ∈ (accesses s).stackWrites → s'.cell i = u'.cell i)
end

