-- ==== Sys2Proof/Laws/Arithmetic.lean ====
section
/-! SUPPORT. The arithmetic of 00_scope.md R6 and R7 beside the library's. -/

namespace Sys2Proof.Machine

/-- The quotient that 00_scope.md R7 writes with signs and magnitudes is the library's truncated division. -/
theorem tdiv_eq_int_tdiv (a b : Int) : tdiv a b = Int.tdiv a b := by
  unfold tdiv
  obtain ⟨m, rfl | rfl⟩ := Int.eq_nat_or_neg a <;> obtain ⟨n, rfl | rfl⟩ := Int.eq_nat_or_neg b <;>
    simp only [Int.neg_tdiv, Int.tdiv_neg, Int.sign_neg, Int.natAbs_neg, Int.natAbs_natCast, Int.ofNat_tdiv] <;>
    rcases Nat.eq_zero_or_pos m with rfl | hm <;> rcases Nat.eq_zero_or_pos n with rfl | hn <;>
    simp_all [Int.sign_natCast_of_ne_zero, Nat.pos_iff_ne_zero]

/-- `uint (wrap64 n) = n mod 2^64` (00_scope.md R6). -/
theorem uint_wrap64 (n : Int) : (uint (wrap64 n) : Int) = n % 2 ^ 64 := by
  simp only [uint, wrap64, BitVec.toNat_ofInt]
  rw [Int.toNat_of_nonneg (by omega)]; norm_num

end Sys2Proof.Machine
end

