-- ==== Sys2Proof/Laws/Decode.lean ====
section
/-! SUPPORT. The fields of a word built from an opcode and an operand. -/

namespace Sys2Proof

@[simp] theorem opcodeField_wordOf (opc : Opcode) (opd : Value) : opcodeField (wordOf opc opd) = opc := by
  apply BitVec.eq_of_getLsbD_eq
  intro i hi
  have : ¬ 64 + i < 64 := by omega
  simp only [opcodeField, wordOf, BitVec.getLsbD_extractLsb', BitVec.getLsbD_append]
  simp [hi]

@[simp] theorem operandField_wordOf (opc : Opcode) (opd : Value) : operandField (wordOf opc opd) = opd := by
  apply BitVec.eq_of_getLsbD_eq
  intro i hi
  simp only [operandField, wordOf, BitVec.getLsbD_extractLsb', BitVec.getLsbD_append]
  simp [hi]

/-- A word is its two fields (30_encoding.md R51): no bit of it lies outside them. -/
theorem wordOf_fields (w : InstrWord) : wordOf (opcodeField w) (operandField w) = w := by
  apply BitVec.eq_of_getLsbD_eq
  intro i hi
  simp only [opcodeField, operandField, wordOf, BitVec.getLsbD_append, BitVec.getLsbD_extractLsb']
  by_cases h : i < 64
  · simp [h]
  · have h8 : i - 64 < 8 := by omega
    have hs : 64 + (i - 64) = i := by omega
    simp [h, h8, hs]

/-- Decoding a word whose fields are known, by the opcode number (30_encoding.md R57). -/
theorem decode_of_fields {w : InstrWord} {opc : Opcode} {opd : Value} (hopc : opcodeField w = opc)
    (hopd : operandField w = opd) :
    decode w =
      match opc.toNat with
      | 0 => .instr (.push opd)
      | 1 => .instr .plus
      | 2 => .instr .minus
      | 3 => .instr .mult
      | 4 => .instr .div
      | 5 => .instr (.jmp opd)
      | 6 => .instr .halt
      | _ => .illegal opc := by
  subst hopc hopd
  rfl

/-- Decoding a word built from its fields, by the opcode number (30_encoding.md R57). -/
theorem decode_wordOf (opc : Opcode) (opd : Value) :
    decode (wordOf opc opd) =
      match opc.toNat with
      | 0 => .instr (.push opd)
      | 1 => .instr .plus
      | 2 => .instr .minus
      | 3 => .instr .mult
      | 4 => .instr .div
      | 5 => .instr (.jmp opd)
      | 6 => .instr .halt
      | _ => .illegal opc :=
  decode_of_fields (opcodeField_wordOf opc opd) (operandField_wordOf opc opd)

end Sys2Proof
end

