-- ==== Sys2Proof/Laws/State.lean ====
section
/-! SUPPORT. One lemma per field per update of the state, and what each update does to `size` and to the cells. -/

namespace Sys2Proof.Machine

@[simp] theorem State.setHalted_stack (s : State) : s.setHalted.stack = s.stack := rfl
@[simp] theorem State.setHalted_ip (s : State) : s.setHalted.ip = s.ip := rfl
@[simp] theorem State.setHalted_halted (s : State) : s.setHalted.halted = true := rfl
@[simp] theorem State.setHalted_trap (s : State) : s.setHalted.trap = s.trap := rfl
@[simp] theorem State.setHalted_prog (s : State) : s.setHalted.prog = s.prog := rfl
@[simp] theorem State.setHalted_capacity (s : State) : s.setHalted.capacity = s.capacity := rfl

@[simp] theorem State.withTrap_stack (s : State) (x : Trap) : (s.withTrap x).stack = s.stack := rfl
@[simp] theorem State.withTrap_ip (s : State) (x : Trap) : (s.withTrap x).ip = s.ip := rfl
@[simp] theorem State.withTrap_halted (s : State) (x : Trap) : (s.withTrap x).halted = s.halted := rfl
@[simp] theorem State.withTrap_trap (s : State) (x : Trap) : (s.withTrap x).trap = x := rfl
@[simp] theorem State.withTrap_prog (s : State) (x : Trap) : (s.withTrap x).prog = s.prog := rfl
@[simp] theorem State.withTrap_capacity (s : State) (x : Trap) : (s.withTrap x).capacity = s.capacity := rfl

@[simp] theorem State.advance_stack (s : State) : s.advance.stack = s.stack := rfl
@[simp] theorem State.advance_ip (s : State) : s.advance.ip = s.ip + 1 := rfl
@[simp] theorem State.advance_halted (s : State) : s.advance.halted = s.halted := rfl
@[simp] theorem State.advance_trap (s : State) : s.advance.trap = s.trap := rfl
@[simp] theorem State.advance_prog (s : State) : s.advance.prog = s.prog := rfl
@[simp] theorem State.advance_capacity (s : State) : s.advance.capacity = s.capacity := rfl

@[simp] theorem State.jumpTo_stack (s : State) (x : InstrIndex) : (s.jumpTo x).stack = s.stack := rfl
@[simp] theorem State.jumpTo_ip (s : State) (x : InstrIndex) : (s.jumpTo x).ip = x := rfl
@[simp] theorem State.jumpTo_halted (s : State) (x : InstrIndex) : (s.jumpTo x).halted = s.halted := rfl
@[simp] theorem State.jumpTo_trap (s : State) (x : InstrIndex) : (s.jumpTo x).trap = s.trap := rfl
@[simp] theorem State.jumpTo_prog (s : State) (x : InstrIndex) : (s.jumpTo x).prog = s.prog := rfl
@[simp] theorem State.jumpTo_capacity (s : State) (x : InstrIndex) : (s.jumpTo x).capacity = s.capacity := rfl

@[simp] theorem State.pushCell_stack (s : State) (x : Value) : (s.pushCell x).stack = s.stack ++ [x] := rfl
@[simp] theorem State.pushCell_ip (s : State) (x : Value) : (s.pushCell x).ip = s.ip := rfl
@[simp] theorem State.pushCell_halted (s : State) (x : Value) : (s.pushCell x).halted = s.halted := rfl
@[simp] theorem State.pushCell_trap (s : State) (x : Value) : (s.pushCell x).trap = s.trap := rfl
@[simp] theorem State.pushCell_prog (s : State) (x : Value) : (s.pushCell x).prog = s.prog := rfl
@[simp] theorem State.pushCell_capacity (s : State) (x : Value) : (s.pushCell x).capacity = s.capacity := rfl

@[simp] theorem State.replaceTopTwo_stack (s : State) (x : Value) : (s.replaceTopTwo x).stack = s.stack.take (s.size - 2) ++ [x] := rfl
@[simp] theorem State.replaceTopTwo_ip (s : State) (x : Value) : (s.replaceTopTwo x).ip = s.ip := rfl
@[simp] theorem State.replaceTopTwo_halted (s : State) (x : Value) : (s.replaceTopTwo x).halted = s.halted := rfl
@[simp] theorem State.replaceTopTwo_trap (s : State) (x : Value) : (s.replaceTopTwo x).trap = s.trap := rfl
@[simp] theorem State.replaceTopTwo_prog (s : State) (x : Value) : (s.replaceTopTwo x).prog = s.prog := rfl
@[simp] theorem State.replaceTopTwo_capacity (s : State) (x : Value) : (s.replaceTopTwo x).capacity = s.capacity := rfl

theorem State.size_eq (s : State) : s.size = s.stack.length := rfl

@[simp] theorem State.setHalted_size (s : State) : s.setHalted.size = s.size := rfl
@[simp] theorem State.withTrap_size (s : State) (x : Trap) : (s.withTrap x).size = s.size := rfl
@[simp] theorem State.advance_size (s : State) : s.advance.size = s.size := rfl
@[simp] theorem State.jumpTo_size (s : State) (x : InstrIndex) : (s.jumpTo x).size = s.size := rfl

@[simp] theorem State.pushCell_size (s : State) (x : Value) : (s.pushCell x).size = s.size + 1 := by
  simp [State.size]

/-- With two values on the stack the replacement lowers `size` by exactly one (42_arithmetic.md R95). -/
theorem State.replaceTopTwo_size (s : State) (x : Value) (h : ¬ s.size < 2) :
    (s.replaceTopTwo x).size = s.size - 1 := by
  simp only [State.size, State.replaceTopTwo_stack, List.length_append, List.length_take, List.length_singleton] at *
  omega

@[simp] theorem State.setHalted_cell (s : State) (i : Nat) : s.setHalted.cell i = s.cell i := rfl
@[simp] theorem State.withTrap_cell (s : State) (x : Trap) (i : Nat) : (s.withTrap x).cell i = s.cell i := rfl
@[simp] theorem State.advance_cell (s : State) (i : Nat) : s.advance.cell i = s.cell i := rfl
@[simp] theorem State.jumpTo_cell (s : State) (x : InstrIndex) (i : Nat) : (s.jumpTo x).cell i = s.cell i := rfl

/-- A cell has a value exactly below `size` (10_state.md R12). -/
theorem State.cell_eq_none_iff (s : State) (i : Nat) : s.cell i = none ↔ s.size ≤ i := by
  simp [State.cell, State.size]

theorem State.pushCell_cell_top (s : State) (x : Value) : (s.pushCell x).cell s.size = some x := by
  simp [State.cell, State.size]

theorem State.pushCell_cell_below (s : State) (x : Value) (i : Nat) (h : i < s.size) :
    (s.pushCell x).cell i = s.cell i := by
  simp only [State.cell, State.size, State.pushCell_stack] at *
  exact List.getElem?_append_left h

theorem State.replaceTopTwo_cell_top (s : State) (x : Value) :
    (s.replaceTopTwo x).cell (s.size - 2) = some x := by
  simp only [State.cell, State.size, State.replaceTopTwo_stack]
  rw [List.getElem?_append_right (by simp)]
  simp

theorem State.replaceTopTwo_cell_below (s : State) (x : Value) (i : Nat) (h : i < s.size - 2) :
    (s.replaceTopTwo x).cell i = s.cell i := by
  simp only [State.cell, State.size, State.replaceTopTwo_stack] at *
  rw [List.getElem?_append_left (by simp; omega), List.getElem?_take, if_pos h]

end Sys2Proof.Machine
end

