-- ==== Sys2Proof/Laws/Ops.lean ====
section
/-! SUPPORT. What each shared operation can do, said once. -/

namespace Sys2Proof.Machine

/-- Taking a trap is a next state that differs in the trap output alone. -/
@[simp] theorem raise_eq_next_iff (tr : Trap) (s t : State) : raise tr s = .next t ↔ t = s.withTrap tr := by
  simp only [raise, Host.Outcome.next.injEq]; exact eq_comm

@[simp] theorem complete_eq_next_iff (s t : State) : complete s = .next t ↔ t = s.withTrap .ok := by
  simp only [complete, Host.Outcome.next.injEq]; exact eq_comm

/-- The fetch reads the word at `ip`, and only inside the program (20_memory.md R31). -/
theorem fetch_eq_getElem? (s : State) : fetch s = s.prog[uint s.ip]? := by
  unfold fetch State.progLen
  split
  · rename_i h; exact (List.getElem?_eq_getElem h).symm
  · rename_i h; exact (List.getElem?_eq_none (Nat.le_of_not_lt h)).symm

theorem fetch_eq_none_iff (s : State) : fetch s = none ↔ s.progLen ≤ uint s.ip := by
  rw [fetch_eq_getElem?]; exact List.getElem?_eq_none_iff

theorem fetch_mem {s : State} {w : InstrWord} (h : fetch s = some w) : w ∈ s.prog := by
  rw [fetch_eq_getElem?] at h; exact List.mem_of_getElem? h

theorem fetch_lt {s : State} {w : InstrWord} (h : fetch s = some w) : uint s.ip < s.progLen := by
  rw [fetch_eq_getElem?] at h; exact (List.getElem?_eq_some_iff.mp h).1

/-- The fetch sees `ip` and the program only. -/
theorem fetch_congr {s t : State} (hp : t.prog = s.prog) (hi : t.ip = s.ip) : fetch t = fetch s := by
  rw [fetch_eq_getElem?, fetch_eq_getElem?, hp, hi]

/-- All that a binary operation can do (42_arithmetic.md R95). -/
theorem binaryOperation_cases (check : Value → Option Trap) (f : Value → Value → Value) (s : State) :
    (s.size < 2 ∧ binaryOperation check f s = .next (s.withTrap .stackUnderflow)) ∨
    (∃ (h : ¬ s.size < 2) (tr : Trap), check (rightOperand s h) = some tr ∧
      binaryOperation check f s = .next (s.withTrap tr)) ∨
    (∃ h : ¬ s.size < 2, check (rightOperand s h) = none ∧
      binaryOperation check f s =
        .next ((s.replaceTopTwo (f (leftOperand s h) (rightOperand s h))).advance.withTrap .ok)) := by
  by_cases h : s.size < 2
  · exact .inl ⟨h, by simp [binaryOperation, h, raise]⟩
  · cases hc : check (rightOperand s h) with
    | some tr => exact .inr (.inl ⟨h, tr, hc, by simp [binaryOperation, h, hc, raise]⟩)
    | none => exact .inr (.inr ⟨h, hc, by simp [binaryOperation, h, hc, complete]⟩)

/-- The left operand is the cell just below the top. -/
theorem leftOperand_eq_iff (s : State) (h : ¬ s.size < 2) (a : Value) :
    leftOperand s h = a ↔ s.cell (s.size - 2) = some a := by
  simp [leftOperand, State.cell, List.getElem?_eq_getElem (leftIndex_lt h)]

/-- The right operand is the top cell. -/
theorem rightOperand_eq_iff (s : State) (h : ¬ s.size < 2) (b : Value) :
    rightOperand s h = b ↔ s.cell (s.size - 1) = some b := by
  simp [rightOperand, State.cell, List.getElem?_eq_getElem (rightIndex_lt h)]

/-- A word put into a program is what the program has at that index (20_memory.md R31). -/
theorem placeWord_getElem? (p : Program) (i : Nat) (w : InstrWord) : (placeWord p i w)[i]? = some w := by
  unfold placeWord
  split
  · rename_i h; simp [h]
  · rename_i h
    have hl : (p ++ List.replicate (i - p.length) 0).length = i := by simp; omega
    rw [List.getElem?_append_right (by omega), hl]
    simp

/-- Putting a word into a program leaves every other word of it. -/
theorem placeWord_getElem?_ne (p : Program) (i j : Nat) (w : InstrWord) (hj : j < p.length) (hne : j ≠ i) :
    (placeWord p i w)[j]? = p[j]? := by
  unfold placeWord
  split
  · exact List.getElem?_set_ne (Ne.symm hne)
  · rw [List.getElem?_append_left (by simp; omega), List.getElem?_append_left hj]

theorem placeWord_length (p : Program) (i : Nat) (w : InstrWord) :
    (placeWord p i w).length = max p.length (i + 1) := by
  unfold placeWord
  split
  · simp; omega
  · simp; omega

/-- Putting a word into a program keeps the program's bound where the index is within it (00_scope.md R5). -/
theorem placeWord_wf (p : Program) (i : Nat) (w : InstrWord) (hp : Program.wf p)
    (hi : i + 1 < Config.progLenBound) : Program.wf (placeWord p i w) := by
  unfold Program.wf at *
  rw [placeWord_length]; exact max_lt hp hi

/-- The program of the reset state is within its bound. -/
theorem reset_prog_wf : Program.wf State.reset.prog := by decide

/-- A step on a machine that is not halted, by the two things it can find at `ip` (40_execution_engine.md R72). -/
theorem step_of_running {s : State} (h : s.halted = false) :
    (fetch s = none ∧ step s = .next (s.withTrap .outOfBoundsFetch)) ∨
    (∃ w, fetch s = some w ∧ step s = runWord w s) := by
  cases hf : fetch s with
  | none => exact .inl ⟨rfl, by simp [step, h, hf, fetchTrap, raise]⟩
  | some w => exact .inr ⟨w, rfl, by simp [step, h, hf]⟩

/-- The word of the next step, for a state built by `withFetchWord`. -/
theorem withFetchWord_fetch (s : State) (nbits w : Nat) :
    fetch (s.withFetchWord nbits w) = some (tableWord nbits w) := by
  rw [fetch_eq_getElem?]; exact placeWord_getElem? _ _ _

end Sys2Proof.Machine
end

