-- ==== Sys2Proof/Laws/PerInstr.lean ====
section
/-! SUPPORT. Facts about every instruction as written, one lemma per constructor. -/

namespace Sys2Proof.Laws.CanonicalWord

/-- The canonical word has the instruction's opcode number, one of the seven, and a zero operand where the opcode declares
none (30_encoding.md R52, R59). -/
def Statement (i : Instr) : Prop :=
  opcodeField (encode i) = opcodeOf i ∧ (opcodeOf i).toNat ≤ 6 ∧
    (declaresOperand i = false → operandField (encode i) = 0#64) ∧ i.wf = true

theorem push (v : Value) : Statement (.push v) := by simp [Statement, encode, declaresOperand, Instr.wf, opcodeOf]
theorem plus : Statement .plus := by simp [Statement, encode, Instr.wf, opcodeOf, operandOf]
theorem minus : Statement .minus := by simp [Statement, encode, Instr.wf, opcodeOf, operandOf]
theorem mult : Statement .mult := by simp [Statement, encode, Instr.wf, opcodeOf, operandOf]
theorem div : Statement .div := by simp [Statement, encode, Instr.wf, opcodeOf, operandOf]
theorem jmp (t : InstrIndex) : Statement (.jmp t) := by simp [Statement, encode, declaresOperand, Instr.wf, opcodeOf]
theorem halt : Statement .halt := by simp [Statement, encode, Instr.wf, opcodeOf, operandOf]

end Sys2Proof.Laws.CanonicalWord
end

