-- ==== Sys2Proof/Laws/Step.lean ====
section
/-! SUPPORT. All that a step can do, said once: every later claim about steps splits on `StepOutcome`. -/

namespace Sys2Proof.Machine

/-- The function of each binary operation (42_arithmetic.md R96 to R99). -/
def binaryFunctions : List (Instr × (Value → Value → Value)) :=
  [(.plus, plusValue), (.minus, minusValue), (.mult, multValue), (.div, divValue)]

/-- The ten ways in which a step leads from `s` to a next state, each with its condition (40_execution_engine.md R72). -/
inductive StepOutcome (s : State) : State → Prop where
  | halted (h : s.halted = true) : StepOutcome s (s.withTrap .ok)
  | noFetch (h : s.halted = false) (hf : fetch s = none) : StepOutcome s (s.withTrap .outOfBoundsFetch)
  | illegal (opc : Opcode) (h : MeetsIllegal s opc) : StepOutcome s (s.withTrap .illegalInst)
  | overflow (v : Value) (h : Executes s (.push v)) (hc : s.size = s.capacity) :
      StepOutcome s (s.withTrap .stackOverflow)
  | push (v : Value) (h : Executes s (.push v)) (hc : s.size ≠ s.capacity) :
      StepOutcome s ((s.pushCell v).advance.withTrap .ok)
  | underflow (i : Instr) (hi : i ∈ binaryInstrs) (h : Executes s i) (hs : s.size < 2) :
      StepOutcome s (s.withTrap .stackUnderflow)
  | divisionByZero (h : Executes s .div) (hs : ¬ s.size < 2) (hb : sint (rightOperand s hs) = 0) :
      StepOutcome s (s.withTrap .divisionByZero)
  | binary (i : Instr) (f : Value → Value → Value) (hi : (i, f) ∈ binaryFunctions) (h : Executes s i)
      (hs : ¬ s.size < 2) (hb : i = .div → sint (rightOperand s hs) ≠ 0) :
      StepOutcome s ((s.replaceTopTwo (f (leftOperand s hs) (rightOperand s hs))).advance.withTrap .ok)
  | jmp (x : InstrIndex) (h : Executes s (.jmp x)) : StepOutcome s ((s.jumpTo x).withTrap .ok)
  | halt (h : Executes s .halt) : StepOutcome s (s.setHalted.advance.withTrap .ok)

theorem mem_binaryInstrs_of_function {i : Instr} {f : Value → Value → Value} (h : (i, f) ∈ binaryFunctions) :
    i ∈ binaryInstrs := by
  simp only [binaryFunctions, List.mem_cons, Prod.mk.injEq, List.not_mem_nil, or_false] at h
  rcases h with ⟨rfl, -⟩ | ⟨rfl, -⟩ | ⟨rfl, -⟩ | ⟨rfl, -⟩ <;> decide

theorem divisorCheck_eq_some_iff (b : Value) (tr : Trap) :
    divisorCheck b = some tr ↔ sint b = 0 ∧ tr = .divisionByZero := by
  unfold divisorCheck
  split <;> simp_all [eq_comm]

theorem divisorCheck_eq_none_iff (b : Value) : divisorCheck b = none ↔ sint b ≠ 0 := by
  unfold divisorCheck
  split <;> simp_all

/-- The word at `ip` decides what the step executes. -/
theorem executes_of_fetch {s : State} {w : InstrWord} {i : Instr} (h : s.halted = false) (hf : fetch s = some w)
    (hd : decode w = .instr i) : Executes s i := ⟨h, by simp [hf, hd]⟩

/-- A step executes at most one instruction. -/
theorem executes_unique {s : State} {i j : Instr} (hi : Executes s i) (hj : Executes s j) : i = j := by
  have := hi.word.symm.trans hj.word
  simpa using this

/-- A machine that executes an instruction steps as that instruction. -/
theorem step_of_executes {s : State} {i : Instr} (h : Executes s i) : step s = exec i s := by
  obtain ⟨hh, hf⟩ := h
  obtain ⟨w, hw, hd⟩ := Option.map_eq_some_iff.mp hf
  simp [step, hh, hw, runWord, hd]

theorem fetch_ne_none_of_executes {s : State} {i : Instr} (h : Executes s i) : fetch s ≠ none := by
  intro e; simpa [e] using h.word

theorem not_meetsIllegal_of_executes {s : State} {i : Instr} (h : Executes s i) (opc : Opcode) :
    ¬ MeetsIllegal s opc := by
  intro h'; simpa using h.word.symm.trans h'.word

theorem fetch_ne_none_of_meetsIllegal {s : State} {opc : Opcode} (h : MeetsIllegal s opc) : fetch s ≠ none := by
  intro e; simpa [e] using h.word

theorem step_of_halted {s : State} (h : s.halted = true) : step s = .next (s.withTrap .ok) := by
  simp [step, h, haltedStep, complete]

theorem step_of_noFetch {s : State} (h : s.halted = false) (hf : fetch s = none) :
    step s = .next (s.withTrap .outOfBoundsFetch) := by
  simp [step, h, hf, fetchTrap, raise]

theorem step_of_illegal {s : State} {opc : Opcode} (h : MeetsIllegal s opc) :
    step s = .next (s.withTrap .illegalInst) := by
  obtain ⟨hh, hf⟩ := h
  obtain ⟨w, hw, hd⟩ := Option.map_eq_some_iff.mp hf
  simp [step, hh, hw, runWord, hd, illegalTrap, raise]

/-- An unchecked binary operation, by the number of values on the stack. -/
theorem binaryOperation_noCheck_eq (f : Value → Value → Value) (s : State) :
    binaryOperation noCheck f s =
      if h : s.size < 2 then .next (s.withTrap .stackUnderflow)
      else .next ((s.replaceTopTwo (f (leftOperand s h) (rightOperand s h))).advance.withTrap .ok) := rfl

/-- DIV, by the number of values on the stack and the divisor. -/
theorem execDiv_eq (s : State) :
    execDiv s =
      if h : s.size < 2 then .next (s.withTrap .stackUnderflow)
      else if sint (rightOperand s h) = 0 then .next (s.withTrap .divisionByZero)
      else .next ((s.replaceTopTwo (divValue (leftOperand s h) (rightOperand s h))).advance.withTrap .ok) := by
  unfold execDiv binaryOperation divisorCheck
  split
  · rfl
  · split <;> simp_all [raise, complete]

theorem execPush_eq (v : Value) (s : State) :
    execPush v s =
      if s.size = s.capacity then .next (s.withTrap .stackOverflow)
      else .next ((s.pushCell v).advance.withTrap .ok) := rfl

/-- Executing an instruction leads to one of the outcomes that belong to it. -/
theorem exec_outcome {s : State} {i : Instr} (he : Executes s i) : ∃ t, exec i s = .next t ∧ StepOutcome s t := by
  have unchecked : ∀ f, (i, f) ∈ binaryFunctions → i ≠ .div →
      ∃ t, binaryOperation noCheck f s = .next t ∧ StepOutcome s t := by
    intro f hf hdiv
    rw [binaryOperation_noCheck_eq]
    by_cases h : s.size < 2
    · exact ⟨_, by simp [h], .underflow i (mem_binaryInstrs_of_function hf) he h⟩
    · exact ⟨_, by simp [h], .binary i f hf he h (fun hd => absurd hd hdiv)⟩
  cases i with
  | push v =>
    by_cases h : s.size = s.capacity
    · exact ⟨_, by simp [exec, execPush_eq, h], .overflow v he h⟩
    · exact ⟨_, by simp [exec, execPush_eq, h], .push v he h⟩
  | plus => exact unchecked plusValue (by simp [binaryFunctions]) (by simp)
  | minus => exact unchecked minusValue (by simp [binaryFunctions]) (by simp)
  | mult => exact unchecked multValue (by simp [binaryFunctions]) (by simp)
  | div =>
    by_cases h : s.size < 2
    · exact ⟨_, by simp [exec, execDiv_eq, h], .underflow .div (by decide) he h⟩
    · by_cases hb : sint (rightOperand s h) = 0
      · exact ⟨_, by simp [exec, execDiv_eq, h, hb], .divisionByZero he h hb⟩
      · exact ⟨_, by simp [exec, execDiv_eq, h, hb], .binary .div divValue (by simp [binaryFunctions]) he h (fun _ => hb)⟩
  | jmp x => exact ⟨_, rfl, .jmp x he⟩
  | halt => exact ⟨_, rfl, .halt he⟩

/-- A step leads to one of its outcomes. -/
theorem exists_stepOutcome (s : State) : ∃ t, step s = .next t ∧ StepOutcome s t := by
  cases hh : s.halted with
  | true => exact ⟨_, step_of_halted hh, .halted hh⟩
  | false =>
    rcases step_of_running hh with ⟨hf, hs⟩ | ⟨w, hf, hs⟩
    · exact ⟨_, hs, .noFetch hh hf⟩
    · cases hd : decode w with
      | instr i =>
        have he := executes_of_fetch hh hf hd
        obtain ⟨t, ht, ho⟩ := exec_outcome he
        exact ⟨t, by rw [step_of_executes he, ht], ho⟩
      | illegal opc =>
        have hm : MeetsIllegal s opc := ⟨hh, by simp [hf, hd]⟩
        exact ⟨_, step_of_illegal hm, .illegal opc hm⟩

/-- The inversion of a step: whatever it answers is one of its outcomes. -/
theorem stepOutcome_of_step {s t : State} (h : step s = .next t) : StepOutcome s t := by
  obtain ⟨u, hu, ho⟩ := exists_stepOutcome s
  rw [hu] at h
  injection h with h
  exact h ▸ ho

end Sys2Proof.Machine
end

