-- ==== Sys2Proof/Tests/Slice0.lean ====
section
/-! SUPPORT. The model's own tests. Expected values come from spec/: the words from 30_encoding.md R59 and
95_test_vectors.md V-ENC, the results from V-PUSH, V-ARITH, V-CTRL, V-TRAP, the rest from the rule each test names.
The `test_witness_` theorems show a state and operands that meet all the hypotheses of the statement they are named after. -/

namespace Sys2Proof.Tests

open Sys2Proof.Machine

/-- A running machine with one word at index 0, `ip` at 0. -/
def oneWord (w : InstrWord) (stack : List Value) (capacity : Nat) : State :=
  { stack := stack, ip := 0, halted := false, trap := .ok, prog := [w], capacity := capacity }

/-- A running machine with no program. -/
def bare (stack : List Value) (ip : InstrIndex) (capacity : Nat) : State :=
  { stack := stack, ip := ip, halted := false, trap := .ok, prog := [], capacity := capacity }

/-- The state a result holds, if it is a next state. -/
def stateOf : Result → Option State
  | .next t => some t
  | .fault _ => none
  | .refused _ => none

/-- The trap and the stack that a result leaves. -/
def trapAndStack (r : Result) : Option (Trap × List Value) := (stateOf r).map fun t => (t.trap, t.stack)

/-- The result of a binary operation on two values, as the one value it leaves, and its trap. -/
def onTwo (i : Instr) (a b : Int) : Option (Trap × List Value) :=
  trapAndStack (exec i (bare [wrap64 a, wrap64 b] 0 4))

/-- A row of the V-ARITH table: the operands and the expected value. -/
def agrees (i : Instr) (row : Int × Int × Int) : Bool :=
  onTwo i row.1 row.2.1 == some (.ok, [wrap64 row.2.2])

/-! ## Well-formedness: an ill-formed term for each check -/

/-- 00_scope.md R5: a program of 2^63 words is refused; 2^63 - 1 is the longest. -/
theorem test_wf_refuses_long_program : ¬ Program.wf (List.replicate (2 ^ 63) 0#72) := by
  simp only [Program.wf, List.length_replicate, Config.progLenBound]; decide
/-- 70_reset_and_hazards.md R153 (3): a JMP to PROG_LEN is refused, to PROG_LEN - 1 accepted. -/
theorem test_wf_refuses_jump_to_the_end : (Instr.jmp 3).jumpsInside 3 = false ∧ (Instr.jmp 2).jumpsInside 3 = true := by
  decide
theorem test_bootable_refuses_negative_target :
    bootable [0x05FFFFFFFFFFFFFFFF#72] = false ∧ bootable [0x050000000000000000#72] = true := by decide
/-- 30_encoding.md R53: such a JMP is still a well-formed instruction. -/
theorem test_every_jump_is_wf : (Instr.jmp (-1)).wf = true := by decide

/-! ## Decoding: words written out from 30_encoding.md R51, R52, R59 -/

theorem test_decode_push : decode 0x0000000000000001A4#72 = .instr (.push 420) := by decide
theorem test_decode_push_min : decode 0x008000000000000000#72 = .instr (.push int64Min) := by decide
theorem test_decode_plus_bits :
    decode 0b000000010000000000000000000000000000000011011110101011011011111011101111#72 = .instr .plus := by decide
theorem test_decode_minus : decode 0x020000000000000000#72 = .instr .minus := by decide
theorem test_decode_mult : decode 0x030000000000000000#72 = .instr .mult := by decide
theorem test_decode_div : decode 0x040000000000000000#72 = .instr .div := by decide
theorem test_decode_jmp_bits :
    decode 0b000001010000000000000000000000000000000000000000000000000000000000000010#72 = .instr (.jmp 2) := by decide
theorem test_decode_jmp_minus_one : decode 0x05FFFFFFFFFFFFFFFF#72 = .instr (.jmp (-1)) := by decide
theorem test_decode_halt_ignored : decode 0x06FFFFFFFFFFFFFFFF#72 = .instr .halt := by decide
theorem test_decode_illegal :
    decode 0x070000000000000000#72 = .illegal 0x07 ∧ decode 0x800000000000000000#72 = .illegal 0x80 := by decide
theorem test_encode_scenario_a :
    assemble [.push 69, .push 420, .plus, .push 42, .minus] =
      [0x000000000000000045#72, 0x0000000000000001A4#72, 0x010000000000000000#72, 0x00000000000000002A#72,
        0x020000000000000000#72] := by decide
theorem test_listing : listProgram [.push 69, .plus, .push (-7), .jmp 2] = "[PUSH 69, PLUS, PUSH -7, JMP 2]" := by decide

/-! ## Instructions -/

theorem test_push_fills : stateOf (exec (.push int64Min) (bare [5] 0 2)) = some (bare [5, int64Min] 1 2) := by decide
theorem test_push_overflow : trapAndStack (exec (.push 9) (bare [5, 6] 3 2)) = some (.stackOverflow, [5, 6]) := by decide
theorem test_plus_vectors :
    [(69, 420, 489), (-7, 2, -5), (3, -5, -2), (-1, 1, 0), (2 ^ 63 - 1, 1, -2 ^ 63), (-2 ^ 63, -1, 2 ^ 63 - 1),
      (2 ^ 63 - 1, 2 ^ 63 - 1, -2), (-2 ^ 63, -2 ^ 63, 0)].all (agrees .plus) = true := by decide
theorem test_minus_vectors :
    [(69, 420, -351), (489, 42, 447), (7, 2, 5), (3, -5, 8), (-2 ^ 63, 1, 2 ^ 63 - 1), (2 ^ 63 - 1, -1, -2 ^ 63),
      (-1, -2 ^ 63, 2 ^ 63 - 1), (1, 2 ^ 63 - 1, -2 ^ 63 + 2)].all (agrees .minus) = true := by decide
theorem test_mult_vectors :
    [(69, 420, 28980), (-7, 2, -14), (-7, -2, 14), (-2 ^ 63, -1, -2 ^ 63), (2 ^ 63 - 1, 2 ^ 63 - 1, 1), (2 ^ 63 - 1, 2, -2),
      (4294967296, 4294967296, 0), (123456789012, 987654321098, -347190634250006584)].all (agrees .mult) = true := by
  decide
theorem test_div_vectors :
    [(894, 4, 223), (7, 2, 3), (-7, 2, -3), (7, -2, -3), (-7, -2, 3), (5, 7, 0), (-2 ^ 63, -1, -2 ^ 63), (-2 ^ 63, 2, -2 ^ 62),
      (2 ^ 63 - 1, 2, 2 ^ 62 - 1), (-1, -2 ^ 63, 0), (0, 1, 0)].all (agrees .div) = true := by decide
theorem test_minus_leaves_lower_cells :
    stateOf (exec .minus (bare [11, 22, 7, 2] 8 9)) = some (bare [11, 22, 5] 9 9) := by decide
theorem test_div_traps :
    trapAndStack (exec .div (bare [0] 0 4)) = some (.stackUnderflow, [0]) ∧
      trapAndStack (exec .div (bare [4, 5, 0] 0 4)) = some (.divisionByZero, [4, 5, 0]) := by decide
theorem test_jmp_copies_all_bits : stateOf (exec (.jmp (-1)) (bare [7] 1 4)) = some (bare [7] 0xFFFFFFFFFFFFFFFF 4) := by
  decide
theorem test_halt : stateOf (exec .halt (bare [447] 5 4)) = some { bare [447] 6 4 with halted := true } := by decide
/-- 95_test_vectors.md V-TRAP: an illegal word on a full stack is no overflow. -/
theorem test_illegal_on_full_stack :
    trapAndStack (step (oneWord 0xFF0000000000000000#72 [1, 2] 2)) = some (.illegalInst, [1, 2]) := by decide
/-- 95_test_vectors.md V-TRAP: `ip = PROG_LEN`, running and halted. -/
theorem test_fetch_at_the_end :
    trapAndStack (step { oneWord 0 [1] 2 with ip := 1 }) = some (.outOfBoundsFetch, [1]) ∧
      trapAndStack (step { oneWord 0 [1] 2 with ip := 1, halted := true }) = some (.ok, [1]) := by decide
/-- 95_test_vectors.md V-RESET. -/
theorem test_reset : resetRequest { bare [447] 6 1028 with halted := true } = State.reset := by decide
/-- The host's question of a table row: the word of PLUS runs first after reset. -/
theorem test_word_after_reset :
    decodeTableWord 72 0x010000000000000000 = some .plus ∧
      trapAndStack (step (State.reset.withFetchWord 72 0x010000000000000000)) = some (.stackUnderflow, []) := by decide
/-- 95_test_vectors.md S5 and S8, in two steps. -/
theorem test_run_jump_out :
    runLoop 2 (fresh [0x05FFFFFFFFFFFFFFFF#72] 4) =
      .trapped .outOfBoundsFetch { fresh [0x05FFFFFFFFFFFFFFFF#72] 4 with ip := -1, trap := .outOfBoundsFetch } := by decide

/-! ## Witnesses -/

theorem executes_oneWord {w : InstrWord} {i : Instr} (h : decode w = .instr i) (st : List Value) (c : Nat) :
    Executes (oneWord w st c) i := ⟨rfl, by simp [fetch, oneWord, uint, State.progLen, h]⟩

theorem test_witness_DecodeAndEncodeAgree :
    (Instr.push int64Max).wf = true ∧ decode 0x01FFFFFFFFFFFFFFFF#72 = .instr .plus := by decide
theorem test_witness_IgnoredOperandHasNoEffect :
    declaresOperand .div = false ∧ 6 < (0x07#8).toNat ∧ 6 < (0xFF#8).toNat := by decide
theorem test_witness_OpcodeTableSelectsTheInstruction :
    (opcodeTable.filter fun r => r.covers 0x06FFFFFFFFFFFFFFFF#72).map TableRow.mnemonic = ["HALT"] ∧
      (opcodeTable.filter fun r => r.covers 0x070000000000000000#72) = [] := by decide
theorem test_witness_StepRunsTheDecodedInstruction :
    let s := oneWord 0x010000000000000000#72 [1, 2] 4
    s.halted = false ∧ uint s.ip < s.progLen ∧ s.prog[uint s.ip]? = some 0x010000000000000000#72 ∧
      decode 0x010000000000000000#72 = .instr .plus := by decide
theorem test_witness_PlacedWordRunsNext :
    decodeTableWord 72 0x050000000000000002 = some (.jmp 2) ∧ decodeTableWord 0 0 = some (.push 0) := by decide
theorem test_witness_HaltedStepChangesNothing : { bare [1] 9 4 with halted := true }.halted = true := by decide
/-- At `PROG_LEN`, in an empty program, and at the top of the index space. -/
theorem test_witness_FetchOutsideTheProgramTraps :
    (bare [] 0 4).halted = false ∧ (bare [] 0 4).progLen ≤ uint (bare [] 0 4).ip ∧
      State.progLen { oneWord 0 [] 4 with ip := 1 } ≤ uint 1 ∧ State.progLen { oneWord 0 [] 4 with ip := -1 } ≤ uint (-1) := by
  decide
theorem test_witness_IllegalOpcodeTraps :
    (oneWord 0x070000000000000000#72 [] 4).halted = false ∧
      fetch (oneWord 0x070000000000000000#72 [] 4) = some 0x070000000000000000#72 ∧
      6 < (opcodeField 0x070000000000000000#72).toNat ∧ 6 < (opcodeField 0xFF0000000000003039#72).toNat := by decide
/-- One state for each trap. -/
theorem test_witness_EachTrapHasItsCondition :
    (trapAndStack (step (bare [] 0 4))).map Prod.fst = some .outOfBoundsFetch ∧
      (trapAndStack (step (oneWord 0x070000000000000000#72 [] 4))).map Prod.fst = some .illegalInst ∧
      (trapAndStack (step (oneWord 0x000000000000000009#72 [] 0))).map Prod.fst = some .stackOverflow ∧
      (trapAndStack (step (oneWord 0x040000000000000000#72 [0] 4))).map Prod.fst = some .stackUnderflow ∧
      (trapAndStack (step (oneWord 0x040000000000000000#72 [0, 0] 4))).map Prod.fst = some .divisionByZero := by decide
theorem test_witness_TrappingStepWritesNothingAndRepeats :
    stateOf (step (bare [3] 0 4)) = some ((bare [3] 0 4).withTrap .outOfBoundsFetch) ∧
      ((bare [3] 0 4).withTrap .outOfBoundsFetch).trap ≠ .ok := by decide
theorem test_witness_NoStepReadsTheTrapOutput :
    SameMachine (bare [3] 0 4) ((bare [3] 0 4).withTrap .illegalInst) ∧
      (bare [3] 0 4).trap ≠ ((bare [3] 0 4).withTrap .illegalInst).trap := ⟨⟨rfl, rfl, rfl, rfl, rfl⟩, by decide⟩
/-- Halted; running at the last index; running at `PROG_LEN`. -/
theorem test_witness_ProgramIsReadOnceAndNeverWritten :
    (accesses { oneWord 0 [] 4 with halted := true }).programReads = [] ∧
      (accesses (oneWord 0 [] 4)).programReads = [0] ∧ uint (oneWord 0 [] 4).ip + 1 = (oneWord 0 [] 4).progLen ∧
      (accesses { oneWord 0 [] 4 with ip := 1 }).programReads = [] ∧ (stateOf (step (oneWord 0 [] 4))).isSome := by decide
theorem test_witness_ParametersChangeOnlyWithANewRun :
    (stateOf (serve (.newRun [7]) (bare [1] 2 4))).map State.prog = some [7] ∧
      (stateOf (serve .reset (oneWord 5 [1] 4))).map State.prog = some [5] ∧
      (stateOf (serve .step (oneWord 5 [1] 4))).map State.prog = some [5] := by decide
/-- Full at `C = 0` and at `C = 2`; one below full; `C` pushes for `C = 0` and `C = 2`. -/
theorem test_witness_PushStoresItsOperand :
    (bare [] 0 0).size = (bare [] 0 0).capacity ∧ (bare [5, 6] 3 2).size = (bare [5, 6] 3 2).capacity ∧
      (bare [5] 0 2).size ≠ (bare [5] 0 2).capacity ∧
      (bare [] 0 0).stack = [] ∧ ([] : List Value).length = (bare [] 0 0).capacity ∧
      (bare [] 0 2).stack = [] ∧ ([8, 9] : List Value).length = (bare [] 0 2).capacity := by decide
/-- The smallest stack on which a binary operation completes; the hypotheses are those of PLUS, MINUS, MULT and DIV. -/
theorem test_witness_two_values :
    2 ≤ (bare [int64Min, -1] 0 4).size ∧ (bare [int64Min, -1] 0 4).cell ((bare [int64Min, -1] 0 4).size - 2) = some int64Min ∧
      (bare [int64Min, -1] 0 4).cell ((bare [int64Min, -1] 0 4).size - 1) = some (-1) ∧ sint (-1) ≠ 0 ∧ sint (-1) = -1 := by
  decide
theorem test_witness_DivLeavesTheTruncatedQuotient :
    2 ≤ (bare [7, 2] 0 4).size ∧ (bare [7, 2] 0 4).cell 0 = some 7 ∧ (bare [7, 2] 0 4).cell 1 = some 2 ∧ sint 2 ≠ 0 ∧
      ¬ (sint 2 = -1) := by decide
theorem test_witness_OverflowIsRaisedByPushAlone :
    Executes (oneWord 0 [1] 1) (.push 0) ∧ (oneWord 0 [1] 1).size = (oneWord 0 [1] 1).capacity ∧
      (stateOf (step (oneWord 0 [1] 1))).map State.trap = some .stackOverflow :=
  ⟨executes_oneWord (by decide) _ _, by decide, by decide⟩
/-- Size 0 and size 1. -/
theorem test_witness_UnderflowIsRaisedByBinaryOperationsAlone :
    Instr.mult ∈ binaryInstrs ∧ (bare [] 0 4).size < 2 ∧ (bare [9] 0 4).size < 2 ∧
      (stateOf (step (oneWord 0x030000000000000000#72 [9] 4))).map State.trap = some .stackUnderflow := by decide
theorem test_witness_DivisionByZeroIsRaisedByDivAlone :
    2 ≤ (bare [1, 0] 0 4).size ∧ (bare [1, 0] 0 4).cell ((bare [1, 0] 0 4).size - 1) = some 0#64 ∧ (bare [0] 0 4).size < 2 ∧
      (stateOf (step (oneWord 0x040000000000000000#72 [1, 0] 4))).map State.trap = some .divisionByZero := by decide
/-- Empty, one value, full. -/
theorem test_witness_EachOpcodeHasItsPrecondition :
    (bare [] 0 4).size ≤ (bare [] 0 4).capacity ∧ (bare [0] 0 4).size < 2 ∧ (bare [1, 2] 0 2).size ≤ (bare [1, 2] 0 2).capacity := by
  decide
/-- A JMP to the JMP's own index. -/
theorem test_witness_JmpSetsIpToItsOperand : (0 : InstrIndex) = (bare [1] 0 4).ip := by decide
/-- The largest sum, the smallest difference and a product that fit; a quotient that fits and one that does not. -/
theorem test_witness_ResultsThatFitAreExact :
    sint (int64Max - 1) + sint 1 = 2 ^ 63 - 1 ∧ sint (int64Min + 1) - sint 1 = -2 ^ 63 ∧
      sint int64Min * sint 1 = -2 ^ 63 ∧ sint 1 ≠ 0 ∧ tdiv (sint int64Max) (sint 1) < 2 ^ 63 ∧
      ¬ tdiv (sint int64Min) (sint (-1)) < 2 ^ 63 := by decide
/-- Both sides of every row of the table: in range, too large, too small, the quotient that does not fit. -/
theorem test_witness_ArithmeticResultTable :
    sint int64Max + sint 1 ≥ 2 ^ 63 ∧ sint int64Min + sint (-1) < -2 ^ 63 ∧ sint int64Max - sint (-1) ≥ 2 ^ 63 ∧
      sint int64Min - sint 1 < -2 ^ 63 ∧ sint int64Min = -2 ^ 63 ∧ sint (-1) = -1 := by decide
theorem test_witness_DivisionTruncatesTowardZero : (-2 : Int) ≠ 0 ∧ ¬ ((0 : Int) < -7 ↔ (0 : Int) < 2) ∧ (-7 : Int) ≤ 0 := by
  decide
theorem test_witness_NothingSurvivesReset :
    (bare [1] 2 4).prog = (bare [] 9 4).prog ∧ (bare [1] 2 4).capacity = (bare [] 9 4).capacity ∧ bare [1] 2 4 ≠ bare [] 9 4 := by
  decide
theorem test_witness_FirstStepAfterResetFetchesIndexZero : ([0x060000000000000000#72] : Program)[0]? = some 0x060000000000000000#72 := by
  decide
/-- Full at its capacity, and taking a step. -/
theorem test_witness_BoundsOfTheStateAreKept :
    (oneWord 0 [1] 1).wf ∧ Request.wf (.newRun [0]) ∧ (stateOf (serve .step (oneWord 0 [1] 1))).isSome :=
  ⟨by decide, by simp [Request.wf, Config.progLenBound], by decide⟩
theorem test_witness_OnlyPushAndBinaryOperationsChangeSize :
    Executes (oneWord 0 [1] 2) (.push 0) ∧ (stateOf (step (oneWord 0 [1] 2))).map State.size = some 2 ∧
      Executes (oneWord 0x020000000000000000#72 [1, 2] 2) .minus ∧
      (stateOf (step (oneWord 0x020000000000000000#72 [1, 2] 2))).map State.size = some 1 :=
  ⟨executes_oneWord (by decide) _ _, by decide, executes_oneWord (by decide) _ _, by decide⟩
/-- Halted; trapping; JMP; HALT at the last index. -/
theorem test_witness_HowEachStepChangesIp :
    (stateOf (step { bare [] 9 4 with halted := true })).map State.ip = some 9 ∧
      (stateOf (step (bare [] 9 4))).map State.trap = some .outOfBoundsFetch ∧
      Executes (oneWord 0x050000000000000007#72 [] 4) (.jmp 7) ∧
      Executes (oneWord 0x060000000000000000#72 [] 4) .halt ∧ Program.wf (oneWord 0x060000000000000000#72 [] 4).prog ∧
      (stateOf (step (oneWord 0x060000000000000000#72 [] 4))).map State.trap = some .ok :=
  ⟨by decide, by decide, executes_oneWord (by decide) _ _, executes_oneWord (by decide) _ _, by decide, by decide⟩
theorem test_witness_HaltedIsSetByHaltAlone :
    (stateOf (step (oneWord 0x060000000000000000#72 [] 4))).map State.halted = some true ∧
      (stateOf (step { bare [] 9 4 with halted := true })).isSome := by decide
/-- A state whose `ip` is the operand of a JMP of its program, outside the program. -/
theorem test_witness_IpStaysJustified :
    (oneWord 0x05FFFFFFFFFFFFFFFF#72 [] 4).wf ∧ IpJustified { oneWord 0x05FFFFFFFFFFFFFFFF#72 [] 4 with ip := -1 } ∧
      (stateOf (step { oneWord 0x05FFFFFFFFFFFFFFFF#72 [] 4 with ip := -1 })).isSome :=
  ⟨by decide, .inr ⟨0x05FFFFFFFFFFFFFFFF#72, -1, by decide, by decide, rfl⟩, by decide⟩
/-- A reachable state whose last step trapped. -/
theorem test_witness_ReachableStatesAreSound :
    Reachable ((fresh [] 4).withTrap .outOfBoundsFetch) ∧ ((fresh [] 4).withTrap .outOfBoundsFetch).trap ≠ .ok :=
  ⟨⟨[], 4, [.step], by decide, by simp [Request.wf], rfl⟩, by decide⟩
/-- At the end of the program, where the fetch traps. -/
theorem test_witness_BootableProgramsStayInside :
    bootable (oneWord 0x050000000000000000#72 [] 4).prog = true ∧ uint 1 ≤ (oneWord 0x050000000000000000#72 [] 4).progLen ∧
      (stateOf (step { oneWord 0x050000000000000000#72 [] 4 with ip := 1 })).map State.trap = some .outOfBoundsFetch := by
  decide

/-- A machine that jumps to its own index for ever. -/
def spinning : State := oneWord 0x050000000000000000#72 [1] 4

theorem step_spinning : step spinning = .next spinning := rfl

/-- The same program on an empty stack of another capacity. -/
def spinningEmpty : State := oneWord 0x050000000000000000#72 [] 9

theorem step_spinningEmpty : step spinningEmpty = .next spinningEmpty := rfl

theorem test_witness_StackOnceNonemptyStaysNonempty :
    StepSequence (fun _ => spinning) 3 ∧ 1 ≤ spinning.size := ⟨fun _ _ => step_spinning, by decide⟩
theorem test_witness_IpCountsTheOkSteps :
    let f := fun k : Nat => if k = 0 then fresh [0] 4 else { fresh [0] 4 with stack := [0], ip := 1 }
    StepSequence f 1 ∧ f 0 = resetRequest (f 0) ∧ Program.wf (f 0).prog ∧ (f 1).halted = false ∧
      (∀ k, k < 1 → ∀ x, ¬ Executes (f k) (.jmp x)) := by
  refine ⟨fun k hk => ?_, by decide, by decide, by decide, fun k hk x he => ?_⟩
  · obtain rfl : k = 0 := by omega
    rfl
  · obtain rfl : k = 0 := by omega
    have := executes_unique he (executes_oneWord (w := 0) (i := .push 0) (by decide) [] 4)
    cases this
/-- Two machines with one program and different stacks and capacities. -/
theorem test_witness_PathDoesNotDependOnValues :
    StepSequence (fun _ => spinning) 2 ∧ StepSequence (fun _ => spinningEmpty) 2 ∧
      AllOk (fun _ => spinning) 2 ∧ AllOk (fun _ => spinningEmpty) 2 ∧ spinning.prog = spinningEmpty.prog ∧
      spinning.ip = spinningEmpty.ip ∧ spinning.halted = spinningEmpty.halted :=
  ⟨fun _ _ => step_spinning, fun _ _ => step_spinningEmpty, fun _ _ => rfl, fun _ _ => rfl, rfl, rfl, rfl⟩
theorem test_witness_LoopIsLeftOnlyByATrap :
    StepSequence (fun _ => spinning) 2 ∧ AllOk (fun _ => spinning) 2 ∧ 0 < 1 ∧ 1 ≤ 2 ∧ spinning.halted = false :=
  ⟨fun _ _ => step_spinning, fun _ _ => rfl, by decide, by decide, rfl⟩
/-- Halted; a step that traps; a step that returns OK. -/
theorem test_witness_RunLoopFollowsItsDefinition :
    { bare [] 9 4 with halted := true }.halted = true ∧ (bare [] 0 4).halted = false ∧
      (stateOf (step (bare [] 0 4))).map State.trap = some .outOfBoundsFetch ∧ spinning.halted = false ∧
      (stateOf (step spinning)).map State.trap = some .ok := by decide
theorem test_witness_HowARunEnds :
    runLoop 1 (bare [] 0 4) = .trapped .outOfBoundsFetch ((bare [] 0 4).withTrap .outOfBoundsFetch) ∧
      runLoop 1 (oneWord 0x060000000000000000#72 [] 4) =
        .halted { oneWord 0x060000000000000000#72 [] 4 with halted := true, ip := 1 } := by decide
theorem test_witness_MoreFuelDoesNotChangeAnEnd :
    ∃ r, runLoop 1 (bare [] 0 4) = r ∧ ∀ t, r ≠ .outOfFuel t := ⟨_, rfl, fun _ h => by cases h⟩
theorem test_witness_SelfJumpNeverEnds : Executes spinning (.jmp spinning.ip) := executes_oneWord (by decide) _ _
/-- `C = 0`, and a full stack. -/
theorem test_witness_SizeOutputLosesNothing :
    (bare [] 0 0).size ≤ (bare [] 0 0).capacity ∧ (bare [1, 2] 0 2).size ≤ (bare [1, 2] 0 2).capacity ∧
      (sizePort (bare [1, 2] 0 2)).toNat = 2 := by decide
theorem test_witness_CellsAboveSizeHaveNoValue :
    BinaryEffect 3 (bare [1, 2] 0 4) (bare [3] 1 4) ∧ 2 ≤ (bare [1, 2] 0 4).size :=
  ⟨⟨by decide, by decide, fun i h => absurd h (by decide +revert), rfl, rfl, rfl, rfl, rfl⟩, by decide⟩
/-- In range, and with the empty program. -/
theorem test_witness_BlockWithItsPortsDoesTheStep :
    uint 1 = spinning.progLen ∧ spinning.prog[uint (fetchIndex spinning)]? = some 0x050000000000000000#72 ∧
      uint 0 = (bare [] 0 4).progLen ∧ ¬ uint (fetchIndex (bare [] 0 4)) < uint 0 := by decide
theorem test_witness_StackAccessesAreInBounds :
    (accesses (oneWord 0 [1] 2)).stackWrites = [1] ∧ (oneWord 0 [1] 2).size ≤ (oneWord 0 [1] 2).capacity ∧
      (accesses (oneWord 0x010000000000000000#72 [1, 2] 2)).stackReads = [0, 1] := by decide
theorem test_witness_StepWritesOnlyTheListedCells :
    (stateOf (step (oneWord 0x010000000000000000#72 [7, 1, 2] 4))).map State.size = some 2 ∧
      0 ∉ (accesses (oneWord 0x010000000000000000#72 [7, 1, 2] 4)).stackWrites := by decide
/-- Two machines that differ in a cell that PLUS does not read. -/
theorem test_witness_StepReadsOnlyTheListedCells :
    let s := oneWord 0x010000000000000000#72 [7, 1, 2] 4
    let u := oneWord 0x010000000000000000#72 [8, 1, 2] 4
    s ≠ u ∧ s.size = u.size ∧ (accesses s).stackReads.all (fun i => s.cell i == u.cell i) = true ∧
      (stateOf (step s)).isSome ∧ (stateOf (step u)).isSome := by decide

end Sys2Proof.Tests
end

section
/-! PROOFS. The `halted` flag (10_state.md R16): HALT sets it, every other outcome of a step keeps it. -/

namespace Sys2Proof.Machine

/-- 43_control.md R112: HALT completes with the flag set and `ip` advanced. -/
theorem step_of_executes_halt {s : State} (h : Executes s .halt) :
    step s = .next (s.setHalted.advance.withTrap .ok) :=
  step_of_executes h

/-- The frame of the flag: only HALT writes it. -/
theorem StepOutcome.halted_eq {s t : State} (h : StepOutcome s t) (hn : ¬ Executes s .halt) :
    t.halted = s.halted := by
  cases h with
  | halt he => exact absurd he hn
  | _ => simp

/-- 10_state.md R16: the flag after a step, from the state before it. -/
theorem halted_iff_of_step {s t : State} (h : step s = .next t) :
    t.halted = true ↔ s.halted = true ∨ Executes s .halt := by
  by_cases he : Executes s .halt
  · obtain rfl : s.setHalted.advance.withTrap .ok = t := by
      simpa [step_of_executes_halt he] using h
    simp [he]
  · rw [(stepOutcome_of_step h).halted_eq he]
    simp [he]

/-- Writing the trap output changes nothing else of the machine. -/
theorem sameMachine_withTrap (s : State) (tr : Trap) : SameMachine s (s.withTrap tr) :=
  ⟨rfl, rfl, rfl, rfl, rfl⟩

/-- 40_execution_engine.md R73: a step on a halted machine returns OK and changes nothing. -/
theorem ok_and_sameMachine_of_halted_step {s t : State} (h : step s = .next t) (hh : s.halted = true) :
    t.trap = .ok ∧ SameMachine s t := by
  obtain rfl : s.withTrap .ok = t := by
    simpa [step_of_halted hh] using h
  exact ⟨rfl, sameMachine_withTrap s .ok⟩

/-- 40_execution_engine.md R80: the run loop tests the flag before it steps, whatever the fuel. -/
theorem runLoop_of_halted {s : State} (n : Nat) (h : s.halted = true) : runLoop n s = .halted s := by
  cases n with
  | zero => simp [runLoop, h]
  | succ n => simp [runLoop, h]

/-- Settles O38: every outcome of a step but HALT's keeps the flag, and a halted machine only answers OK. -/
theorem haltedIsSetByHaltAlone : Obligations.HaltedIsSetByHaltAlone :=
  ⟨fun _ => rfl, fun _ _ => halted_iff_of_step, fun _ _ => ok_and_sameMachine_of_halted_step,
    fun _ n => runLoop_of_halted n⟩

end Sys2Proof.Machine
end

section
/-! PROOFS. The accesses of a step (20_memory.md R36): what the access table lists for each way a step can go, the one
program read of R31 and the bounds of R33. -/

namespace Sys2Proof.Machine

/-! ## The access table, row by row -/

theorem accesses_of_halted {s : State} (h : s.halted = true) : accesses s = Access.none := by
  simp [accesses, h]

theorem accesses_of_noFetch {s : State} (h : s.halted = false) (hf : fetch s = none) :
    accesses s = Access.none := by
  simp [accesses, h, hf]

theorem accesses_of_illegal {s : State} {opc : Opcode} (h : MeetsIllegal s opc) :
    accesses s = ⟨[uint s.ip], [], []⟩ := by
  obtain ⟨hh, hf⟩ := h
  obtain ⟨w, hw, hd⟩ := Option.map_eq_some_iff.mp hf
  simp [accesses, hh, hw, hd]

theorem accesses_of_executes {s : State} {i : Instr} (h : Executes s i) :
    accesses s = instrAccess i (uint s.ip) s := by
  obtain ⟨hh, hf⟩ := h
  obtain ⟨w, hw, hd⟩ := Option.map_eq_some_iff.mp hf
  simp [accesses, hh, hw, hd]

/-- A step meets one of the four situations of the rows above (40_execution_engine.md R72). -/
theorem halted_or_noFetch_or_illegal_or_executes (s : State) :
    s.halted = true ∨ (s.halted = false ∧ fetch s = none) ∨ (∃ opc, MeetsIllegal s opc) ∨ ∃ i, Executes s i := by
  cases hh : s.halted with
  | true => exact .inl rfl
  | false =>
    cases hf : fetch s with
    | none => exact .inr (.inl ⟨rfl, rfl⟩)
    | some w =>
      cases hd : decode w with
      | illegal opc => exact .inr (.inr (.inl ⟨opc, hh, by simp [hf, hd]⟩))
      | instr i => exact .inr (.inr (.inr ⟨i, executes_of_fetch hh hf hd⟩))

/-! ## The accesses of a binary operation and of PUSH -/

/-- A binary operation's row is the shared one, with the operation's own check (42_arithmetic.md R95). -/
theorem exists_instrAccess_eq_binaryAccess {i : Instr} (hi : i ∈ binaryInstrs) :
    ∃ check, instrAccess i = binaryAccess check := by
  simp only [binaryInstrs, List.mem_cons, List.not_mem_nil, or_false] at hi
  obtain rfl | rfl | rfl | rfl := hi
  · exact ⟨noCheck, rfl⟩
  · exact ⟨noCheck, rfl⟩
  · exact ⟨noCheck, rfl⟩
  · exact ⟨divisorCheck, rfl⟩

theorem binaryAccess_of_size_lt_two (check : Value → Option Trap) (ip : Nat) {s : State} (h : s.size < 2) :
    binaryAccess check ip s = ⟨[ip], [], []⟩ := by
  simp [binaryAccess, h]

/-- With two values on the stack both operands are read, and the left operand's cell is the only one that may be
written. -/
theorem binaryAccess_of_two_le_size (check : Value → Option Trap) (ip : Nat) {s : State} (h : ¬ s.size < 2) :
    ∃ ws, ws ⊆ [s.size - 2] ∧ binaryAccess check ip s = ⟨[ip], [s.size - 2, s.size - 1], ws⟩ := by
  cases hc : check (rightOperand s h) with
  | some tr => exact ⟨[], by simp, by simp [binaryAccess, h, hc]⟩
  | none => exact ⟨[s.size - 2], by simp, by simp [binaryAccess, h, hc]⟩

theorem instrAccess_push_of_full (v : Value) (ip : Nat) {s : State} (h : s.size = s.capacity) :
    instrAccess (.push v) ip s = ⟨[ip], [], []⟩ := by
  simp [instrAccess, h]

theorem instrAccess_push_of_not_full (v : Value) (ip : Nat) {s : State} (h : s.size ≠ s.capacity) :
    instrAccess (.push v) ip s = ⟨[ip], [], [s.size]⟩ := by
  simp [instrAccess, h]

/-! ## The program read (20_memory.md R31) -/

@[simp] theorem binaryAccess_programReads (check : Value → Option Trap) (ip : Nat) (s : State) :
    (binaryAccess check ip s).programReads = [ip] := by
  by_cases h : s.size < 2
  · simp [binaryAccess_of_size_lt_two check ip h]
  · obtain ⟨ws, -, hb⟩ := binaryAccess_of_two_le_size check ip h
    simp [hb]

/-- Executing an instruction reads no program word but the one it was fetched from. -/
@[simp] theorem instrAccess_programReads (i : Instr) (ip : Nat) (s : State) :
    (instrAccess i ip s).programReads = [ip] := by
  cases i with
  | push v =>
    by_cases h : s.size = s.capacity
    · simp [instrAccess_push_of_full v ip h]
    · simp [instrAccess_push_of_not_full v ip h]
  | plus => exact binaryAccess_programReads noCheck ip s
  | minus => exact binaryAccess_programReads noCheck ip s
  | mult => exact binaryAccess_programReads noCheck ip s
  | div => exact binaryAccess_programReads divisorCheck ip s
  | jmp x => rfl
  | halt => rfl

/-- A step that fetches reads the word at `ip`, legal or not, and no other. -/
theorem accesses_programReads_of_fetch {s : State} {w : InstrWord} (h : s.halted = false) (hf : fetch s = some w) :
    (accesses s).programReads = [uint s.ip] := by
  cases hd : decode w with
  | instr i => rw [accesses_of_executes (executes_of_fetch h hf hd), instrAccess_programReads]
  | illegal opc => rw [accesses_of_illegal (opc := opc) ⟨h, by simp [hf, hd]⟩]

/-- The frame of the program: no outcome of a step writes it. -/
theorem StepOutcome.prog_eq {s t : State} (h : StepOutcome s t) : t.prog = s.prog := by
  cases h <;> simp

/-- Settles O14: the step's outcomes keep the program, and whether the fetch finds a word decides the program read. -/
theorem programIsReadOnceAndNeverWritten : Obligations.ProgramIsReadOnceAndNeverWritten := by
  intro s t hst
  refine ⟨(stepOutcome_of_step hst).prog_eq, fun hh => ?halted, fun hh hlt => ?inRange, fun hh hge => ?outOfRange⟩
  case halted => rw [accesses_of_halted hh, Access.none]
  case inRange =>
    obtain ⟨hf, -⟩ | ⟨w, hf, hw⟩ := step_of_running hh
    · exact absurd ((fetch_eq_none_iff s).mp hf) (Nat.not_le_of_lt hlt)
    · exact ⟨accesses_programReads_of_fetch hh hf, w, fetch_eq_getElem? s ▸ hf, hw⟩
  case outOfRange =>
    have hf : fetch s = none := (fetch_eq_none_iff s).mpr hge
    obtain rfl : s.withTrap .outOfBoundsFetch = t := by
      simpa [step_of_noFetch hh hf] using hst
    exact ⟨by rw [accesses_of_noFetch hh hf, Access.none], by simp⟩

/-! ## The bounds of the stack accesses (20_memory.md R33) -/

/-- The stack accesses `a` are within the bounds of `s`: reads below `size`, writes below `C` (20_memory.md R33). -/
structure Access.InBounds (a : Access) (s : State) : Prop where
  reads : ∀ i, i ∈ a.stackReads → i < s.size
  writes : ∀ i, i ∈ a.stackWrites → i < s.capacity

/-- Nothing read and nothing written is within any bounds. -/
theorem Access.inBounds_of_no_stack_access (ps : List Nat) (s : State) : Access.InBounds ⟨ps, [], []⟩ s :=
  ⟨by simp, by simp⟩

/-- The check `size >= 2` validates both reads and the write of a binary operation. -/
theorem binaryAccess_inBounds (check : Value → Option Trap) (ip : Nat) {s : State} (hc : s.size ≤ s.capacity) :
    (binaryAccess check ip s).InBounds s := by
  by_cases h : s.size < 2
  · rw [binaryAccess_of_size_lt_two check ip h]
    exact Access.inBounds_of_no_stack_access _ s
  · obtain ⟨ws, hws, hb⟩ := binaryAccess_of_two_le_size check ip h
    rw [hb]
    refine ⟨fun i hi => ?_, fun i hi => ?_⟩
    · simp only [List.mem_cons, List.not_mem_nil, or_false] at hi
      omega
    · have : i = s.size - 2 := List.mem_singleton.mp (hws hi)
      omega

/-- The check `size = C` validates PUSH's write, since `size` is never above `C`. -/
theorem instrAccess_push_inBounds (v : Value) (ip : Nat) {s : State} (hc : s.size ≤ s.capacity) :
    (instrAccess (.push v) ip s).InBounds s := by
  by_cases h : s.size = s.capacity
  · rw [instrAccess_push_of_full v ip h]
    exact Access.inBounds_of_no_stack_access _ s
  · rw [instrAccess_push_of_not_full v ip h]
    exact ⟨by simp, by simpa using Nat.lt_of_le_of_ne hc h⟩

theorem instrAccess_inBounds (i : Instr) (ip : Nat) {s : State} (hc : s.size ≤ s.capacity) :
    (instrAccess i ip s).InBounds s := by
  cases i with
  | push v => exact instrAccess_push_inBounds v ip hc
  | plus => exact binaryAccess_inBounds noCheck ip hc
  | minus => exact binaryAccess_inBounds noCheck ip hc
  | mult => exact binaryAccess_inBounds noCheck ip hc
  | div => exact binaryAccess_inBounds divisorCheck ip hc
  | jmp x => exact Access.inBounds_of_no_stack_access _ s
  | halt => exact Access.inBounds_of_no_stack_access _ s

theorem accesses_inBounds {s : State} (hc : s.size ≤ s.capacity) : (accesses s).InBounds s := by
  obtain hh | ⟨hh, hf⟩ | ⟨opc, hm⟩ | ⟨i, he⟩ := halted_or_noFetch_or_illegal_or_executes s
  · rw [accesses_of_halted hh]
    exact Access.inBounds_of_no_stack_access _ s
  · rw [accesses_of_noFetch hh hf]
    exact Access.inBounds_of_no_stack_access _ s
  · rw [accesses_of_illegal hm]
    exact Access.inBounds_of_no_stack_access _ s
  · rw [accesses_of_executes he]
    exact instrAccess_inBounds i _ hc

/-- A step whose check of `size` fails reads its word and touches no stack cell. -/
theorem StepOutcome.accesses_of_size_trap {s t : State} (h : StepOutcome s t)
    (ht : t.trap = .stackOverflow ∨ t.trap = .stackUnderflow) : accesses s = ⟨[uint s.ip], [], []⟩ := by
  cases h with
  | overflow v he hfull => rw [accesses_of_executes he, instrAccess_push_of_full v _ hfull]
  | underflow i hi he hlt =>
    obtain ⟨check, hb⟩ := exists_instrAccess_eq_binaryAccess hi
    rw [accesses_of_executes he, hb, binaryAccess_of_size_lt_two check _ hlt]
  | _ => simp at ht

/-- Settles O54: each instruction's check of `size` bounds its accesses, and where it fails there are none. -/
theorem stackAccessesAreInBounds : Obligations.StackAccessesAreInBounds := by
  intro s hc
  refine ⟨(accesses_inBounds hc).reads, (accesses_inBounds hc).writes, fun t hst ht => ?_⟩
  rw [(stepOutcome_of_step hst).accesses_of_size_trap ht]
  exact ⟨rfl, rfl⟩

end Sys2Proof.Machine
end

section
/-! PROOFS. The preconditions of the step's parts (40_execution_engine.md R73, R75, R77): a halted machine, an illegal
word, and what each instruction needs to return OK. -/

namespace Sys2Proof.Machine

/-! ## A halted machine and an illegal word -/

/-- Settles O7: the halted test comes first, and the step writes the trap output alone. -/
theorem haltedStepChangesNothing : Obligations.HaltedStepChangesNothing := by
  intro s hh
  exact ⟨accesses_of_halted hh, _, step_of_halted hh, rfl, sameMachine_withTrap s .ok⟩

/-- 30_encoding.md R56: the decoder has no instruction for an opcode above 6. -/
theorem decode_eq_illegal_of_six_lt {w : InstrWord} (h : 6 < (opcodeField w).toNat) :
    decode w = .illegal (opcodeField w) := by
  unfold decode
  split
  case h_8 => rfl
  all_goals omega

theorem meetsIllegal_of_six_lt {s : State} {w : InstrWord} (hh : s.halted = false) (hf : fetch s = some w)
    (h : 6 < (opcodeField w).toNat) : MeetsIllegal s (opcodeField w) :=
  ⟨hh, by rw [hf, Option.map_some, decode_eq_illegal_of_six_lt h]⟩

/-- Settles O9: a word with an opcode above 6 is illegal, and the trap of an illegal word looks at nothing else. -/
theorem illegalOpcodeTraps : Obligations.IllegalOpcodeTraps := by
  intro s w hh hf h
  have hm : MeetsIllegal s (opcodeField w) := meetsIllegal_of_six_lt hh hf h
  exact ⟨accesses_of_illegal hm, _, step_of_illegal hm, rfl, sameMachine_withTrap s .illegalInst⟩

/-! ## What each instruction needs to return OK (40_execution_engine.md R77) -/

/-- PUSH's test `size = C` is the test `size < C`, since `size` is never above `C`. -/
theorem exec_push_ok_iff (v : Value) {s : State} (hc : s.size ≤ s.capacity) :
    (∃ t, exec (.push v) s = .next t ∧ t.trap = .ok) ↔ s.size < s.capacity := by
  by_cases h : s.size = s.capacity
  · simp [exec, execPush_eq, h]
  · simpa [exec, execPush_eq, h] using Nat.lt_of_le_of_ne hc h

/-- 42_arithmetic.md R95: a binary operation returns OK where it finds two operands and its own check passes. -/
theorem binaryOperation_ok_iff {check : Value → Option Trap} (hcheck : ∀ b, check b ≠ some .ok)
    (f : Value → Value → Value) (s : State) :
    (∃ t, binaryOperation check f s = .next t ∧ t.trap = .ok) ↔
      ∃ h : ¬ s.size < 2, check (rightOperand s h) = none := by
  obtain ⟨hlt, hb⟩ | ⟨hge, tr, htr, hb⟩ | ⟨hge, hnone, hb⟩ := binaryOperation_cases check f s
  · simp [hb, hlt]
  · have htr_ok : tr ≠ .ok := fun e => hcheck _ (e ▸ htr)
    simp [hb, htr, htr_ok]
  · simp only [hb, Host.Outcome.next.injEq, exists_eq_left', State.withTrap_trap, true_iff]
    exact ⟨hge, hnone⟩

theorem binaryOperation_noCheck_ok_iff (f : Value → Value → Value) (s : State) :
    (∃ t, binaryOperation noCheck f s = .next t ∧ t.trap = .ok) ↔ 2 ≤ s.size := by
  rw [binaryOperation_ok_iff (by simp [noCheck])]
  simp only [noCheck, exists_prop, and_true, not_lt]

theorem sint_eq_zero_iff (b : Value) : sint b = 0 ↔ b = 0#64 := by
  rw [sint, ← BitVec.toInt_inj, BitVec.toInt_zero]

/-- DIV's own check passes exactly where the top cell is not zero (42_arithmetic.md R99). -/
theorem divisorCheck_rightOperand_eq_none_iff {s : State} (h : ¬ s.size < 2) :
    divisorCheck (rightOperand s h) = none ↔ s.cell (s.size - 1) ≠ some 0#64 := by
  rw [divisorCheck_eq_none_iff, ne_eq, sint_eq_zero_iff, rightOperand_eq_iff]

theorem exec_div_ok_iff (s : State) :
    (∃ t, exec .div s = .next t ∧ t.trap = .ok) ↔ 2 ≤ s.size ∧ s.cell (s.size - 1) ≠ some 0#64 := by
  have hcheck : ∀ b, divisorCheck b ≠ some .ok := by simp [divisorCheck_eq_some_iff]
  calc (∃ t, execDiv s = .next t ∧ t.trap = .ok)
      ↔ ∃ h : ¬ s.size < 2, divisorCheck (rightOperand s h) = none := binaryOperation_ok_iff hcheck divValue s
    _ ↔ 2 ≤ s.size ∧ s.cell (s.size - 1) ≠ some 0#64 := by
      simp only [divisorCheck_rightOperand_eq_none_iff, exists_prop, not_lt]

/-- Settles O24: one precondition per instruction, and DIV's check of `size` before its check of the divisor. -/
theorem eachOpcodeHasItsPrecondition : Obligations.EachOpcodeHasItsPrecondition := by
  intro s hc
  refine ⟨fun v => exec_push_ok_iff v hc, fun i hi => ?unchecked, exec_div_ok_iff s, fun x => ⟨_, rfl, rfl⟩,
    ⟨_, rfl, rfl⟩, fun hlt => ?divUnderflow⟩
  case unchecked =>
    simp only [List.mem_cons, List.not_mem_nil, or_false] at hi
    obtain rfl | rfl | rfl := hi
    · exact binaryOperation_noCheck_ok_iff plusValue s
    · exact binaryOperation_noCheck_ok_iff minusValue s
    · exact binaryOperation_noCheck_ok_iff multValue s
  case divUnderflow =>
    exact ⟨s.withTrap .stackUnderflow, by simp [exec, execDiv_eq, hlt], rfl⟩

end Sys2Proof.Machine
end

section
/-! PROOFS. PUSH (41_push.md R90): its two outcomes, its frame, and sequences of pushes. -/

namespace Sys2Proof.Machine

/-! ## One PUSH -/

theorem exec_push_of_full (v : Value) {s : State} (h : s.size = s.capacity) :
    exec (.push v) s = .next (s.withTrap .stackOverflow) :=
  (execPush_eq v s).trans (if_pos h)

theorem exec_push_of_not_full (v : Value) {s : State} (h : s.size ≠ s.capacity) :
    exec (.push v) s = .next ((s.pushCell v).advance.withTrap .ok) :=
  (execPush_eq v s).trans (if_neg h)

theorem exec_push_raises_overflow (v : Value) {s : State} (h : s.size = s.capacity) :
    ∃ t, exec (.push v) s = .next t ∧ Raised .stackOverflow s t :=
  ⟨_, exec_push_of_full v h, rfl, sameMachine_withTrap s .stackOverflow⟩

/-- 20_memory.md R36: PUSH writes its cell without reading it, and a failed check reads nothing either. -/
theorem instrAccess_push_stackReads (v : Value) (ip : Nat) (s : State) :
    (instrAccess (.push v) ip s).stackReads = [] := by
  by_cases h : s.size = s.capacity
  · rw [instrAccess_push_of_full v ip h]
  · rw [instrAccess_push_of_not_full v ip h]

/-! ## Sequences of pushes (41_push.md R90 (c)) -/

/-- Pushes that fit put their values on the stack in order. The disjunct `s.trap = .ok` is for the induction: after the
first push the rest of the sequence may be empty, and the trap output is then the OK of that push. -/
theorem execAll_push_of_fits (vs : List Value) (s : State) (h : s.size + vs.length ≤ s.capacity) :
    ∃ t, execAll (vs.map Instr.push) s = .next t ∧ t.stack = s.stack ++ vs ∧ t.capacity = s.capacity ∧
      (s.trap = .ok ∨ vs ≠ [] → t.trap = .ok) := by
  induction vs generalizing s with
  | nil => exact ⟨s, rfl, by simp, rfl, by simp⟩
  | cons v vs ih =>
    rw [List.length_cons] at h
    have hpush := exec_push_of_not_full v (s := s) (by omega)
    have hrest : s.size + 1 + vs.length ≤ s.capacity := by omega
    obtain ⟨t, hrun, hstack, hcap, htrap⟩ :=
      ih ((s.pushCell v).advance.withTrap .ok) (by simpa using hrest)
    exact ⟨t, by simp [execAll, hpush, hrun], by simp [hstack], hcap, fun _ => htrap (.inl rfl)⟩

/-- Settles O16: the check `size = C` decides between the two outcomes of PUSH, and `C` pushes onto an empty stack fit. -/
theorem pushStoresItsOperand : Obligations.PushStoresItsOperand := by
  refine ⟨fun v s => ⟨rfl, decode_wordOf 0x00#8 v, fun k => instrAccess_push_stackReads v k s,
    exec_push_raises_overflow v, fun hroom => ?stored⟩, fun vs v s hempty hlen => ?filled⟩
  case stored =>
    exact ⟨_, exec_push_of_not_full v hroom, rfl, s.pushCell_cell_top v, s.pushCell_size v,
      s.pushCell_cell_below v, rfl, rfl, rfl, rfl⟩
  case filled =>
    have hfits : s.size + vs.length ≤ s.capacity := by simp [State.size, hempty, hlen]
    obtain ⟨t, hrun, hstack, hcap, htrap⟩ := execAll_push_of_fits vs s hfits
    have hvs : t.stack = vs := by rw [hstack, hempty, List.nil_append]
    have hsize : t.size = s.capacity := by rw [State.size_eq, hvs, hlen]
    exact ⟨t, hrun, hvs, hsize, fun hne => htrap (.inr hne), exec_push_raises_overflow v (hsize.trans hcap.symm)⟩

end Sys2Proof.Machine
end

section
/-! PROOFS. JMP (43_control.md R110): its one outcome, the fetch that follows it, and the jump to its own index. -/

namespace Sys2Proof.Machine

/-- 43_control.md R110: JMP has no precondition, so it has one outcome in every state. -/
theorem exec_jmp (x : InstrIndex) (s : State) : exec (.jmp x) s = .next ((s.jumpTo x).withTrap .ok) := rfl

/-- The step after a JMP fetches at its target: `ip` is not advanced, and the program is as it was. -/
theorem fetch_jumpTo_withTrap (x : InstrIndex) (tr : Trap) (s : State) :
    fetch ((s.jumpTo x).withTrap tr) = s.prog[uint x]? := by
  rw [fetch_eq_getElem?, State.withTrap_prog, State.jumpTo_prog, State.withTrap_ip, State.jumpTo_ip]

/-- 43_control.md R110 (a): `ip` is all that a jump writes, so a jump to where `ip` stands changes nothing. -/
theorem sameMachine_jumpTo_ip (tr : Trap) (s : State) : SameMachine s ((s.jumpTo s.ip).withTrap tr) :=
  ⟨rfl, rfl, rfl, rfl, rfl⟩

/-- Settles O25: JMP's one outcome is `s.jumpTo x` with the trap output OK, whose only new field is `ip`. -/
theorem jmpSetsIpToItsOperand : Obligations.JmpSetsIpToItsOperand := by
  intro x s
  refine ⟨rfl, decode_wordOf 0x05#8 x, _, exec_jmp x s, rfl, rfl, rfl, rfl, rfl, rfl,
    fetch_jumpTo_withTrap x .ok s, fun hself => ?selfJump⟩
  case selfJump =>
    subst hself
    exact sameMachine_jumpTo_ip .ok s

end Sys2Proof.Machine
end

section
/-! PROOFS. The traps of the instructions (60_exceptions.md R122, R123, R125): STACK_OVERFLOW, STACK_UNDERFLOW and
DIVISION_BY_ZERO, each from its condition to the trap and from the trap back to its condition. -/

namespace Sys2Proof.Machine

/-! ## From the condition to the trap -/

/-- 40_execution_engine.md R76: a raised trap is the trap output written and nothing else. -/
theorem raised_withTrap (tr : Trap) (s : State) : Raised tr s (s.withTrap tr) :=
  ⟨rfl, sameMachine_withTrap s tr⟩

/-- Each binary instruction is the shared operation, with its own check and function (42_arithmetic.md R95). -/
theorem exists_exec_eq_binaryOperation {i : Instr} (hi : i ∈ binaryInstrs) :
    ∃ check f, exec i = binaryOperation check f := by
  simp only [binaryInstrs, List.mem_cons, List.not_mem_nil, or_false] at hi
  obtain rfl | rfl | rfl | rfl := hi
  · exact ⟨noCheck, plusValue, rfl⟩
  · exact ⟨noCheck, minusValue, rfl⟩
  · exact ⟨noCheck, multValue, rfl⟩
  · exact ⟨divisorCheck, divValue, rfl⟩

/-- The check of `size` comes before the operation's own, so the outcome is the same for every operation. -/
theorem binaryOperation_of_size_lt_two (check : Value → Option Trap) (f : Value → Value → Value) {s : State}
    (h : s.size < 2) : binaryOperation check f s = .next (s.withTrap .stackUnderflow) := by
  simp [binaryOperation, h, raise]

theorem exec_binary_raises_underflow {i : Instr} {s : State} (hi : i ∈ binaryInstrs) (h : s.size < 2) :
    ∃ t, exec i s = .next t ∧ Raised .stackUnderflow s t := by
  obtain ⟨check, f, hexec⟩ := exists_exec_eq_binaryOperation hi
  exact ⟨_, by rw [hexec, binaryOperation_of_size_lt_two check f h], raised_withTrap .stackUnderflow s⟩

/-- DIV's test of its divisor is a test of the top cell (42_arithmetic.md R99). -/
theorem sint_rightOperand_eq_zero_iff {s : State} (h : ¬ s.size < 2) :
    sint (rightOperand s h) = 0 ↔ s.cell (s.size - 1) = some 0#64 := by
  rw [sint_eq_zero_iff, rightOperand_eq_iff]

theorem exec_div_raises_divisionByZero {s : State} (hsize : 2 ≤ s.size) (htop : s.cell (s.size - 1) = some 0#64) :
    ∃ t, exec .div s = .next t ∧ Raised .divisionByZero s t := by
  have hge : ¬ s.size < 2 := Nat.not_lt.mpr hsize
  have hzero : sint (rightOperand s hge) = 0 := (sint_rightOperand_eq_zero_iff hge).mpr htop
  have hexec : exec .div s = .next (s.withTrap .divisionByZero) :=
    (execDiv_eq s).trans (by rw [dif_neg hge, if_pos hzero])
  exact ⟨_, hexec, raised_withTrap .divisionByZero s⟩

/-! ## From the trap back to its condition -/

/-- 40_execution_engine.md R76: the outcomes that write more than the trap output all return OK. -/
theorem StepOutcome.sameMachine_of_trap_ne_ok {s t : State} (h : StepOutcome s t) (ht : t.trap ≠ .ok) :
    SameMachine s t := by
  cases h with
  | halted | noFetch | illegal | overflow | underflow | divisionByZero => exact sameMachine_withTrap s _
  | push | binary | jmp | halt => exact absurd rfl ht

theorem StepOutcome.executes_push_of_overflow {s t : State} (h : StepOutcome s t) (ht : t.trap = .stackOverflow) :
    (∃ v, Executes s (.push v)) ∧ s.size = s.capacity := by
  cases h with
  | overflow v he hfull => exact ⟨⟨v, he⟩, hfull⟩
  | _ => simp at ht

theorem StepOutcome.executes_binary_of_underflow {s t : State} (h : StepOutcome s t) (ht : t.trap = .stackUnderflow) :
    (∃ i, i ∈ binaryInstrs ∧ Executes s i) ∧ s.size < 2 := by
  cases h with
  | underflow i hi he hlt => exact ⟨⟨i, hi, he⟩, hlt⟩
  | _ => simp at ht

theorem StepOutcome.executes_div_of_divisionByZero {s t : State} (h : StepOutcome s t)
    (ht : t.trap = .divisionByZero) : Executes s .div ∧ 2 ≤ s.size ∧ s.cell (s.size - 1) = some 0#64 := by
  cases h with
  | divisionByZero he hge hzero => exact ⟨he, Nat.not_lt.mp hge, (sint_rightOperand_eq_zero_iff hge).mp hzero⟩
  | _ => simp at ht

/-! ## The three traps -/

/-- Settles O21: PUSH's test of `size` raises the trap, and the outcome with this trap is PUSH's on a full stack, whose
accesses are none but the fetch. -/
theorem overflowIsRaisedByPushAlone : Obligations.OverflowIsRaisedByPushAlone := by
  refine ⟨fun v s he hfull => ?raises, fun s t hst htrap => ?raisedBy⟩
  case raises =>
    rw [step_of_executes he]
    exact exec_push_raises_overflow v hfull
  case raisedBy =>
    have ho : StepOutcome s t := stepOutcome_of_step hst
    obtain ⟨hpush, hfull⟩ := ho.executes_push_of_overflow htrap
    exact ⟨hpush, hfull, by rw [ho.accesses_of_size_trap (.inl htrap)]⟩

/-- Settles O22: the shared test of `size` raises the trap, and the outcome with this trap is a binary operation's on
fewer than two values, which reads no cell. -/
theorem underflowIsRaisedByBinaryOperationsAlone : Obligations.UnderflowIsRaisedByBinaryOperationsAlone := by
  refine ⟨fun _ _ => exec_binary_raises_underflow, fun s t hst htrap => ?raisedBy⟩
  case raisedBy =>
    have ho : StepOutcome s t := stepOutcome_of_step hst
    obtain ⟨hbinary, hlt⟩ := ho.executes_binary_of_underflow htrap
    exact ⟨hbinary, hlt, by rw [ho.accesses_of_size_trap (.inr htrap)],
      ho.sameMachine_of_trap_ne_ok (by simp [htrap])⟩

/-- Settles O23: DIV tests `size` first and its divisor second, and the outcome with this trap is DIV's on a top cell
that is zero. -/
theorem divisionByZeroIsRaisedByDivAlone : Obligations.DivisionByZeroIsRaisedByDivAlone := by
  refine ⟨fun _ => exec_div_raises_divisionByZero, fun _ => exec_binary_raises_underflow (by decide),
    fun s t hst htrap => ?raisedBy⟩
  case raisedBy =>
    have ho : StepOutcome s t := stepOutcome_of_step hst
    obtain ⟨hdiv, hsize, htop⟩ := ho.executes_div_of_divisionByZero htrap
    exact ⟨hdiv, hsize, htop, ho.sameMachine_of_trap_ne_ok (by simp [htrap])⟩

end Sys2Proof.Machine
end

section
/-! PROOFS. The first step after a reset (70_reset_and_hazards.md R152): what the reset leaves in the fields that the
fetch reads, and the step that runs the word it finds. -/

namespace Sys2Proof.Machine

@[simp] theorem resetRequest_ip (s : State) : (resetRequest s).ip = 0 := rfl
@[simp] theorem resetRequest_halted (s : State) : (resetRequest s).halted = false := rfl
@[simp] theorem resetRequest_prog (s : State) : (resetRequest s).prog = s.prog := rfl
@[simp] theorem presentProgram_prog (p : Program) (s : State) : (presentProgram p s).prog = p := rfl

/-- 20_memory.md R31: program indices start at 0, where a reset puts `ip`. -/
theorem fetch_resetRequest (s : State) : fetch (resetRequest s) = s.prog[0]? := by
  rw [fetch_eq_getElem?, resetRequest_prog, resetRequest_ip]
  rfl

/-- 40_execution_engine.md R72: a running machine whose fetch finds a word runs that word. -/
theorem step_of_fetch {s : State} {w : InstrWord} (h : s.halted = false) (hf : fetch s = some w) :
    step s = runWord w s := by
  obtain ⟨hnone, -⟩ | ⟨v, hv, hstep⟩ := step_of_running h
  · simp [hf] at hnone
  · obtain rfl : w = v := Option.some.inj (hf.symm.trans hv)
    exact hstep

/-- Settles O33: a reset leaves the machine running with `ip` at 0, so its next fetch finds the first word. -/
theorem firstStepAfterResetFetchesIndexZero : Obligations.FirstStepAfterResetFetchesIndexZero := by
  refine fun p w s => ⟨resetRequest_ip s, fun hw => ?firstWord⟩
  case firstWord =>
    have hf : fetch (resetRequest (presentProgram p s)) = some w := by
      rw [fetch_resetRequest, presentProgram_prog, hw]
    exact ⟨hf, step_of_fetch (resetRequest_halted _) hf⟩

end Sys2Proof.Machine
end

section
/-! PROOFS. Encoding (30_encoding.md): what a decoded instruction says of its word's fields, and the opcode table as one
row per instruction. -/

namespace Sys2Proof

/-! ## Decoding against encoding -/

theorem decode_encode (i : Instr) : decode (encode i) = .instr i := by
  cases i with
  | push v => exact decode_wordOf 0x00#8 v
  | plus => exact decode_wordOf 0x01#8 0#64
  | minus => exact decode_wordOf 0x02#8 0#64
  | mult => exact decode_wordOf 0x03#8 0#64
  | div => exact decode_wordOf 0x04#8 0#64
  | jmp t => exact decode_wordOf 0x05#8 t
  | halt => exact decode_wordOf 0x06#8 0#64

/-- 30_encoding.md R57: the decoder selects by the opcode field and takes a declared operand as it stands. -/
theorem fields_of_decode {w : InstrWord} {i : Instr} (h : decode w = .instr i) :
    (opcodeField w).toNat = (opcodeOf i).toNat ∧ (declaresOperand i = true → operandField w = operandOf i) := by
  unfold decode at h
  split at h
  case h_8 => cases h
  all_goals
    cases h
    exact ⟨‹_›, by simp [declaresOperand, operandOf]⟩

theorem opcodeField_of_decode {w : InstrWord} {i : Instr} (h : decode w = .instr i) : opcodeField w = opcodeOf i :=
  BitVec.eq_of_toNat_eq (fields_of_decode h).1

/-- 30_encoding.md R59: an operand that the opcode does not declare is zero in the canonical word. -/
theorem operandOf_eq_zero {i : Instr} (h : declaresOperand i = false) : operandOf i = 0#64 := by
  cases i with
  | push v | jmp t => simp [declaresOperand] at h
  | plus | minus | mult | div | halt => rfl

/-- The canonical operand field, from any word that decodes to the instruction. -/
theorem operandOf_of_decode {w : InstrWord} {i : Instr} (h : decode w = .instr i) :
    operandOf i = if declaresOperand i then operandField w else 0#64 := by
  split
  · rename_i hd; exact ((fields_of_decode h).2 hd).symm
  · rename_i hd; exact operandOf_eq_zero (by simpa using hd)

/-- Settles O2: both fields of the canonical word are read off the decoder's case. -/
theorem decodeAndEncodeAgree : Obligations.DecodeAndEncodeAgree :=
  ⟨fun i _ => decode_encode i, fun _ _ h => by
    rw [encode, opcodeField_of_decode h, operandOf_of_decode h]⟩

/-- Settles O1: each of the ten words is a literal, which the decoder computes. -/
theorem sampleWordsDecode : Obligations.SampleWordsDecode := by
  unfold Obligations.SampleWordsDecode
  decide

/-! ## Ignored operands (30_encoding.md R55) -/

theorem decode_wordOf_opcodeOf {i : Instr} (h : declaresOperand i = false) (opd : Value) :
    decode (wordOf (opcodeOf i) opd) = .instr i := by
  cases i with
  | push v | jmp t => simp [declaresOperand] at h
  | plus | minus | mult | div | halt => exact decode_wordOf _ opd

theorem decode_wordOf_of_six_lt {opc : Opcode} (h : 6 < opc.toNat) (opd : Value) :
    decode (wordOf opc opd) = .illegal opc := by
  simpa using Machine.decode_eq_illegal_of_six_lt (w := wordOf opc opd) (by simpa using h)

namespace Machine

theorem runWord_of_decode_instr {w : InstrWord} {i : Instr} (h : decode w = .instr i) (s : State) :
    runWord w s = exec i s := by
  simp [runWord, h]

theorem runWord_of_decode_illegal {w : InstrWord} {opc : Opcode} (h : decode w = .illegal opc) (s : State) :
    runWord w s = illegalTrap opc s := by
  simp [runWord, h]

/-- Settles O3: the operand field does not reach the decoded instruction, which is all that a word executes by. -/
theorem ignoredOperandHasNoEffect : Obligations.IgnoredOperandHasNoEffect := by
  refine ⟨fun i opd s hi => ?undeclared, fun opc opd s hopc => ?illegal⟩
  case undeclared =>
    have hd := decode_wordOf_opcodeOf hi opd
    exact ⟨hd, runWord_of_decode_instr hd s, by rw [encode, operandField_wordOf, operandOf_eq_zero hi]⟩
  case illegal =>
    have hd := decode_wordOf_of_six_lt hopc opd
    exact ⟨hd, runWord_of_decode_illegal hd s⟩

end Machine

/-! ## The opcode table (30_encoding.md R62) -/

/-- The table's row of an instruction: the opcode byte is compared and the operand is masked out. -/
def rowOf (i : Instr) : TableRow := ⟨i.mnemonic, wordOf (opcodeOf i) 0#64, wordOf 0xFF#8 0#64⟩

/-- The row of an instruction stands at the index of its opcode. -/
theorem opcodeTable_getElem?_opcodeOf (i : Instr) : opcodeTable[(opcodeOf i).toNat]? = some (rowOf i) := by
  cases i with
  | push v => exact (by decide : opcodeTable[0]? = some (rowOf (.push 0)))
  | jmp t => exact (by decide : opcodeTable[5]? = some (rowOf (.jmp 0)))
  | plus | minus | mult | div | halt => rfl

/-- The mnemonic determines the opcode: it is the position of the mnemonic in the table. -/
theorem idxOf_mnemonic (i : Instr) :
    (opcodeTable.map TableRow.mnemonic).idxOf i.mnemonic = (opcodeOf i).toNat := by
  cases i <;> rfl

theorem mem_opcodeTable_iff (row : TableRow) : row ∈ opcodeTable ↔ ∃ i, row = rowOf i := by
  constructor
  · intro h
    simp only [opcodeTable, List.mem_cons, List.not_mem_nil, or_false] at h
    obtain rfl | rfl | rfl | rfl | rfl | rfl | rfl := h
    · exact ⟨.push 0, rfl⟩
    · exact ⟨.plus, rfl⟩
    · exact ⟨.minus, rfl⟩
    · exact ⟨.mult, rfl⟩
    · exact ⟨.div, rfl⟩
    · exact ⟨.jmp 0, rfl⟩
    · exact ⟨.halt, rfl⟩
  · rintro ⟨i, rfl⟩
    exact List.mem_of_getElem? (opcodeTable_getElem?_opcodeOf i)

theorem rowOf_eq_of_opcodeOf_eq {i j : Instr} (h : opcodeOf i = opcodeOf j) : rowOf i = rowOf j := by
  have hrow := opcodeTable_getElem?_opcodeOf i
  rw [h, opcodeTable_getElem?_opcodeOf j] at hrow
  exact (Option.some.inj hrow).symm

theorem mnemonic_eq_iff (i j : Instr) : i.mnemonic = j.mnemonic ↔ opcodeOf i = opcodeOf j := by
  constructor
  · intro h
    exact BitVec.eq_of_toNat_eq (by rw [← idxOf_mnemonic, ← idxOf_mnemonic, h])
  · intro h
    exact congrArg TableRow.mnemonic (rowOf_eq_of_opcodeOf_eq h)

/-- A conjunction of words is taken field by field. -/
theorem and_eq_wordOf (w v : InstrWord) :
    w &&& v = wordOf (opcodeField w &&& opcodeField v) (operandField w &&& operandField v) := by
  rw [← wordOf_fields (w &&& v)]
  congr 1
  · simp [opcodeField, BitVec.extractLsb'_and]
  · simp [operandField, BitVec.extractLsb'_and]

theorem wordOf_zero_inj {a b : Opcode} : wordOf a 0#64 = wordOf b 0#64 ↔ a = b :=
  ⟨fun h => by simpa using congrArg opcodeField h, fun h => h ▸ rfl⟩

/-- The mask keeps the opcode byte alone, so a row covers a word exactly by it. -/
theorem rowOf_covers_iff (i : Instr) (w : InstrWord) : (rowOf i).covers w = true ↔ opcodeField w = opcodeOf i := by
  have hmask : w &&& wordOf 0xFF#8 0#64 = wordOf (opcodeField w) 0#64 := by
    have hones : opcodeField w &&& 0xFF#8 = opcodeField w := BitVec.and_allOnes
    rw [and_eq_wordOf, opcodeField_wordOf, operandField_wordOf, hones, BitVec.and_zero]
  rw [TableRow.covers, beq_iff_eq, rowOf, hmask, wordOf_zero_inj]

/-- A word with the opcode of some instruction decodes to an instruction with that opcode. -/
theorem exists_decode_of_opcodeField {w : InstrWord} {j : Instr} (h : opcodeField w = opcodeOf j) :
    ∃ i, decode w = .instr i ∧ opcodeOf i = opcodeOf j := by
  have hw : wordOf (opcodeOf j) (operandField w) = w := h ▸ wordOf_fields w
  rw [← hw]
  cases j with
  | push v => exact ⟨.push (operandField w), decode_wordOf 0x00#8 _, rfl⟩
  | jmp t => exact ⟨.jmp (operandField w), decode_wordOf 0x05#8 _, rfl⟩
  | plus | minus | mult | div | halt => exact ⟨_, decode_wordOf_opcodeOf rfl _, rfl⟩

theorem rowOf_covers_iff_decode (j : Instr) (w : InstrWord) :
    (rowOf j).covers w = true ↔ ∃ i : Instr, decode w = .instr i ∧ i.mnemonic = j.mnemonic := by
  rw [rowOf_covers_iff]
  constructor
  · intro h
    obtain ⟨i, hd, hi⟩ := exists_decode_of_opcodeField h
    exact ⟨i, hd, (mnemonic_eq_iff i j).mpr hi⟩
  · rintro ⟨i, hd, hi⟩
    rw [opcodeField_of_decode hd, (mnemonic_eq_iff i j).mp hi]

/-- A word that the decoder refuses is named by its own opcode. -/
theorem opcodeField_of_decode_illegal {w : InstrWord} {opc : Opcode} (h : decode w = .illegal opc) :
    opc = opcodeField w := by
  unfold decode at h
  split at h
  case h_8 => cases h; rfl
  all_goals cases h

theorem no_row_covers_iff (w : InstrWord) :
    (∀ row, row ∈ opcodeTable → row.covers w = false) ↔ decode w = .illegal (opcodeField w) := by
  cases hd : decode w with
  | instr i =>
    simp only [reduceCtorEq, iff_false]
    intro hnone
    have hcovers : (rowOf i).covers w = true := (rowOf_covers_iff i w).mpr (opcodeField_of_decode hd)
    simp [hnone (rowOf i) ((mem_opcodeTable_iff _).mpr ⟨i, rfl⟩)] at hcovers
  | illegal opc =>
    refine iff_of_true (fun row hrow => ?_) (by rw [opcodeField_of_decode_illegal hd])
    obtain ⟨j, rfl⟩ := (mem_opcodeTable_iff row).mp hrow
    rw [← Bool.not_eq_true, rowOf_covers_iff_decode]
    simp [hd]

/-- Settles O4: the rows are those of the instructions, and a row covers a word by its opcode byte alone. -/
theorem opcodeTableSelectsTheInstruction : Obligations.OpcodeTableSelectsTheInstruction := by
  intro w
  refine ⟨fun row hrow => ?selects, fun r₁ r₂ h₁ h₂ hc₁ hc₂ => ?unique, no_row_covers_iff w⟩
  case selects =>
    obtain ⟨j, rfl⟩ := (mem_opcodeTable_iff row).mp hrow
    exact rowOf_covers_iff_decode j w
  case unique =>
    obtain ⟨i, rfl⟩ := (mem_opcodeTable_iff r₁).mp h₁
    obtain ⟨j, rfl⟩ := (mem_opcodeTable_iff r₂).mp h₂
    rw [rowOf_covers_iff] at hc₁ hc₂
    exact rowOf_eq_of_opcodeOf_eq (hc₁.symm.trans hc₂)

end Sys2Proof
end

section
/-! PROOFS. What every step keeps (10_state.md R13, R15, R22): the frame, `size` and `ip` of each outcome of a step, and
the invariants that follow. -/

namespace Sys2Proof.Machine

/-! ## The frame, `size` and `ip` of a step's outcome -/

theorem StepOutcome.capacity_eq {s t : State} (h : StepOutcome s t) : t.capacity = s.capacity := by
  cases h <;> simp

/-- The instructions whose success changes `size` (10_state.md R13). -/
def ChangesSize (i : Instr) : Prop := (∃ v, i = .push v) ∨ i ∈ binaryInstrs

theorem push_notMem_binaryInstrs (v : Value) : Instr.push v ∉ binaryInstrs := by simp [binaryInstrs]

theorem not_changesSize_jmp (x : InstrIndex) : ¬ ChangesSize (.jmp x) := by
  simp [ChangesSize, binaryInstrs]

theorem not_changesSize_halt : ¬ ChangesSize .halt := by
  simp [ChangesSize, binaryInstrs]

/-- 10_state.md R13: a step succeeds with a PUSH, or with a binary operation, or leaves `size`. -/
theorem StepOutcome.size_cases {s t : State} (h : StepOutcome s t) :
    (t.size = s.size ∧ ∀ i, Executes s i → t.trap = .ok → ¬ ChangesSize i) ∨
    (∃ v, Executes s (.push v) ∧ s.size ≠ s.capacity ∧ t.size = s.size + 1 ∧ t.trap = .ok) ∨
    (∃ i, i ∈ binaryInstrs ∧ Executes s i ∧ 2 ≤ s.size ∧ t.size = s.size - 1 ∧ t.trap = .ok) := by
  cases h with
  | halted hh => exact .inl ⟨rfl, fun i hi => by simp [hi.running] at hh⟩
  | noFetch | illegal | overflow | underflow | divisionByZero => exact .inl ⟨rfl, by simp⟩
  | push v he hroom => exact .inr (.inl ⟨v, he, hroom, s.pushCell_size v, rfl⟩)
  | binary i f hi he hge =>
    exact .inr (.inr ⟨i, mem_binaryInstrs_of_function hi, he, Nat.not_lt.mp hge, s.replaceTopTwo_size _ hge, rfl⟩)
  | jmp x he => exact .inl ⟨rfl, fun i hi _ => executes_unique he hi ▸ not_changesSize_jmp x⟩
  | halt he => exact .inl ⟨rfl, fun i hi _ => executes_unique he hi ▸ not_changesSize_halt⟩

/-- No binary operation is a JMP. -/
theorem ne_jmp_of_mem_binaryInstrs {i : Instr} (hi : i ∈ binaryInstrs) (x : InstrIndex) : i ≠ .jmp x := by
  rintro rfl
  simp [binaryInstrs] at hi

/-- 10_state.md R15: a step leaves `ip`, or executes a JMP, or executes another instruction and adds one. -/
theorem StepOutcome.ip_cases {s t : State} (h : StepOutcome s t) :
    ((s.halted = true ∨ t.trap ≠ .ok) ∧ t.ip = s.ip) ∨
    (∃ x, Executes s (.jmp x) ∧ t.ip = x ∧ t.trap = .ok) ∨
    (∃ i, Executes s i ∧ (∀ x, i ≠ .jmp x) ∧ t.ip = s.ip + 1 ∧ t.trap = .ok) := by
  cases h with
  | halted hh => exact .inl ⟨.inl hh, rfl⟩
  | noFetch | illegal | overflow | underflow | divisionByZero => exact .inl ⟨.inr (by simp), rfl⟩
  | push v he => exact .inr (.inr ⟨_, he, by simp, rfl, rfl⟩)
  | binary i f hi he =>
    exact .inr (.inr ⟨i, he, ne_jmp_of_mem_binaryInstrs (mem_binaryInstrs_of_function hi), rfl, rfl⟩)
  | jmp x he => exact .inr (.inl ⟨x, he, rfl, rfl⟩)
  | halt he => exact .inr (.inr ⟨_, he, by simp, rfl, rfl⟩)

/-! ## The bounds of the state -/

theorem StepOutcome.wf {s t : State} (h : StepOutcome s t) (hwf : s.wf) : t.wf := by
  obtain ⟨hsize, hprog⟩ := hwf
  refine ⟨?_, h.prog_eq ▸ hprog⟩
  rw [h.capacity_eq]
  obtain ⟨hs, -⟩ | ⟨-, -, hroom, hs, -⟩ | ⟨-, -, -, -, hs, -⟩ := h.size_cases <;> omega

/-- What a request answers: the step, or the reset of the state with the same or the new program. -/
theorem serve_cases {r : Request} {s t : State} (h : serve r s = .next t) :
    (r = .step ∧ step s = .next t) ∨ (r = .reset ∧ t = resetRequest s) ∨
    (∃ p, r = .newRun p ∧ t = resetRequest (presentProgram p s)) := by
  cases r with
  | step => exact .inl ⟨rfl, h⟩
  | reset => exact .inr (.inl ⟨rfl, by simpa [serve, eq_comm] using h⟩)
  | newRun p => exact .inr (.inr ⟨p, rfl, by simpa [serve, eq_comm] using h⟩)

@[simp] theorem resetRequest_size (s : State) : (resetRequest s).size = 0 := rfl

/-- A reset empties the stack, so only the program's bound is left to ask for. -/
theorem resetRequest_wf {s : State} (h : Program.wf s.prog) : (resetRequest s).wf :=
  ⟨Nat.zero_le _, h⟩

theorem serve_wf {r : Request} {s t : State} (hr : r.wf) (hs : s.wf) (h : serve r s = .next t) : t.wf := by
  obtain ⟨-, hst⟩ | ⟨-, rfl⟩ | ⟨p, rfl, rfl⟩ := serve_cases h
  · exact (stepOutcome_of_step hst).wf hs
  · exact resetRequest_wf hs.2
  · exact resetRequest_wf hr

/-- Settles O35: PUSH's test `size = C` keeps `size <= C`, and a reset leaves an empty stack. -/
theorem boundsOfTheStateAreKept : Obligations.BoundsOfTheStateAreKept :=
  ⟨fun _ _ hs h => (stepOutcome_of_step h).wf hs, fun _ _ _ => serve_wf⟩

/-- Settles O36: the three ways in which a step can treat `size` exclude each other. -/
theorem onlyPushAndBinaryOperationsChangeSize : Obligations.OnlyPushAndBinaryOperationsChangeSize := by
  intro s t hst
  obtain ⟨hs, hno⟩ | ⟨v, hv, -, hs, hok⟩ | ⟨i, hi, he, hge, hs, hok⟩ := (stepOutcome_of_step hst).size_cases
  · exact ⟨fun v hv hok => absurd (.inl ⟨v, rfl⟩) (hno _ hv hok), fun i hi he hok => absurd (.inr hi) (hno i he hok),
      fun hne => absurd hs hne⟩
  · exact ⟨fun _ _ _ => hs, fun i hi he _ => absurd (executes_unique he hv ▸ hi) (push_notMem_binaryInstrs v),
      fun _ => ⟨hok, .inl ⟨v, hv⟩⟩⟩
  · exact ⟨fun v hv _ => absurd (executes_unique he hv ▸ hi) (push_notMem_binaryInstrs v), fun _ _ _ _ => by omega,
      fun _ => ⟨hok, .inr ⟨i, hi, he⟩⟩⟩

/-! ## The instruction pointer -/

/-- A step that executes an instruction has fetched its word from inside the program. -/
theorem exists_word_of_executes {s : State} {i : Instr} (h : Executes s i) :
    ∃ w, w ∈ s.prog ∧ decode w = .instr i ∧ uint s.ip < s.progLen := by
  obtain ⟨w, hw, hd⟩ := Option.map_eq_some_iff.mp h.word
  exact ⟨w, fetch_mem hw, hd, fetch_lt hw⟩

/-- 40_execution_engine.md R78: an index inside a program of fewer than 2^63 words is far from the wrap. -/
theorem uint_add_one {ip : InstrIndex} {p : Program} (hp : Program.wf p) (h : uint ip < p.length) :
    uint (ip + 1) = uint ip + 1 := by
  have hbound : p.length < 2 ^ 63 := hp
  unfold uint at *
  rw [BitVec.toNat_add_of_lt] <;> simp
  omega

/-- `ip + 1` after an executed instruction is at most one past the end. -/
theorem uint_ip_add_one_of_executes {s : State} {i : Instr} (hp : Program.wf s.prog) (h : Executes s i) :
    uint (s.ip + 1) = uint s.ip + 1 ∧ uint (s.ip + 1) ≤ s.progLen := by
  obtain ⟨-, -, -, hlt⟩ := exists_word_of_executes h
  have hadd : uint (s.ip + 1) = uint s.ip + 1 := uint_add_one hp hlt
  exact ⟨hadd, by omega⟩

/-- Settles O37: the three ways in which a step can treat `ip` exclude each other. -/
theorem howEachStepChangesIp : Obligations.HowEachStepChangesIp := by
  intro s t hst
  obtain ⟨hkept, hip⟩ | ⟨x, hx, hip, hok⟩ | ⟨i, hi, hne, hip, hok⟩ := (stepOutcome_of_step hst).ip_cases
  · refine ⟨fun _ => hip, fun _ => hip, fun x hx => ?_, fun j hj _ hok => ?_⟩
    · obtain rfl : (s.jumpTo x).withTrap .ok = t := by simpa [step_of_executes hx, exec_jmp] using hst
      rfl
    · exact absurd hok (hkept.resolve_left (by simp [hj.running]))
  · refine ⟨fun hh => ?_, fun htrap => absurd hok htrap, fun y hy => ?_, fun j hj hne => ?_⟩
    · simp [hx.running] at hh
    · rw [hip, Instr.jmp.inj (executes_unique hx hy)]
    · exact absurd (executes_unique hj hx) (hne x)
  · refine ⟨fun hh => ?_, fun htrap => absurd hok htrap, fun y hy => ?_, fun j hj _ _ => ⟨hip, fun hp => ?_⟩⟩
    · simp [hi.running] at hh
    · exact absurd (executes_unique hi hy) (hne y)
    · rw [hip]
      exact uint_ip_add_one_of_executes hp hi

/-- 10_state.md R22 (d): an `ip` that is kept, advanced or set by a JMP stays justified. -/
theorem ipJustified_of_step {s t : State} (hwf : s.wf) (hj : IpJustified s) (h : step s = .next t) :
    IpJustified t := by
  have ho : StepOutcome s t := stepOutcome_of_step h
  unfold IpJustified State.progLen at *
  rw [ho.prog_eq]
  obtain ⟨-, hip⟩ | ⟨x, hx, hip, -⟩ | ⟨i, hi, -, hip, -⟩ := ho.ip_cases
  · rwa [hip]
  · obtain ⟨w, hw, hd, -⟩ := exists_word_of_executes hx
    exact .inr ⟨w, x, hw, hd, hip⟩
  · rw [hip]
    exact .inl (uint_ip_add_one_of_executes hwf.2 hi).2

theorem ipJustified_resetRequest (s : State) : IpJustified (resetRequest s) := .inl (Nat.zero_le _)

theorem ipJustified_of_serve {r : Request} {s t : State} (hwf : s.wf) (hj : IpJustified s)
    (h : serve r s = .next t) : IpJustified t := by
  obtain ⟨-, hst⟩ | ⟨-, rfl⟩ | ⟨p, -, rfl⟩ := serve_cases h
  · exact ipJustified_of_step hwf hj hst
  · exact ipJustified_resetRequest _
  · exact ipJustified_resetRequest _

/-- Settles O39: a JMP justifies its own target, and any other instruction advances from inside the program. -/
theorem ipStaysJustified : Obligations.IpStaysJustified :=
  ⟨fun _ _ => ipJustified_of_step, fun _ _ _ => ipJustified_of_serve⟩

/-! ## Programs that meet the boot requirements -/

/-- 70_reset_and_hazards.md R153 (3): a JMP that a bootable program executes has its target inside the program. -/
theorem uint_lt_of_executes_jmp {s : State} {x : InstrIndex} (hb : bootable s.prog = true)
    (h : Executes s (.jmp x)) : uint x < s.progLen := by
  obtain ⟨w, hw, hd, -⟩ := exists_word_of_executes h
  obtain ⟨-, hinside⟩ := (Bool.and_eq_true_iff).mp hb
  have hword := List.all_eq_true.mp hinside w hw
  simp only [hd, Instr.jumpsInside, decide_eq_true_eq] at hword
  exact hword

theorem wf_of_bootable {p : Program} (hb : bootable p = true) : Program.wf p :=
  of_decide_eq_true ((Bool.and_eq_true_iff).mp hb).1

/-- The outcome with this trap is the fetch that finds no word. -/
theorem StepOutcome.running_and_out_of_range {s t : State} (h : StepOutcome s t) (ht : t.trap = .outOfBoundsFetch) :
    s.halted = false ∧ s.progLen ≤ uint s.ip := by
  cases h with
  | noFetch hh hf => exact ⟨hh, (fetch_eq_none_iff s).mp hf⟩
  | _ => simp at ht

/-- Settles O41: a JMP stays inside by the boot requirement, any other instruction by the bound on the length. -/
theorem bootableProgramsStayInside : Obligations.BootableProgramsStayInside := by
  intro s t hb hle hst
  have ho : StepOutcome s t := stepOutcome_of_step hst
  refine ⟨?inside, ho.prog_eq ▸ hb, fun htrap => hle.antisymm (ho.running_and_out_of_range htrap).2⟩
  case inside =>
    rw [State.progLen, ho.prog_eq]
    obtain ⟨-, hip⟩ | ⟨x, hx, hip, -⟩ | ⟨i, hi, -, hip, -⟩ := ho.ip_cases
    · rwa [hip]
    · rw [hip]
      exact (uint_lt_of_executes_jmp hb hx).le
    · rw [hip]
      exact (uint_ip_add_one_of_executes (wf_of_bootable hb) hi).2

end Sys2Proof.Machine
end

section
/-! PROOFS. What one step answers (40_execution_engine.md R72, 60_exceptions.md R120): exactly one next state, with the
trap whose condition holds, whatever the trap output was before. -/

namespace Sys2Proof.Machine

/-! ## The instruction that a step executes -/

/-- Settles O5: the fetch finds the word, and the word executes what it decodes to. -/
theorem stepRunsTheDecodedInstruction : Obligations.StepRunsTheDecodedInstruction := by
  intro s w i hh _ hw hd
  rw [step_of_fetch hh ((fetch_eq_getElem? s).trans hw), runWord_of_decode_instr hd]

theorem decode_of_decodeTableWord {nbits w : Nat} {i : Instr} (h : decodeTableWord nbits w = some i) :
    decode (tableWord nbits w) = .instr i := by
  unfold decodeTableWord at h
  cases hd : decode (tableWord nbits w) with
  | instr j => simpa [hd] using h
  | illegal opc => simp [hd] at h

/-- Settles O6: the placed word is the one that the next fetch finds, on a machine that is made to run. -/
theorem placedWordRunsNext : Obligations.PlacedWordRunsNext := by
  intro s nbits w i h
  rw [step_of_fetch rfl (withFetchWord_fetch s nbits w), runWord_of_decode_instr (decode_of_decodeTableWord h)]

/-- Settles O8: a fetch that finds no word ends the step with its trap before anything is read or written. -/
theorem fetchOutsideTheProgramTraps : Obligations.FetchOutsideTheProgramTraps := by
  intro s hh hge
  have hf : fetch s = none := (fetch_eq_none_iff s).mpr hge
  exact ⟨accesses_of_noFetch hh hf, _, step_of_noFetch hh hf, raised_withTrap .outOfBoundsFetch s⟩

/-! ## Exactly one next state -/

theorem exists_binaryOperation_eq_next (check : Value → Option Trap) (f : Value → Value → Value) (s : State) :
    ∃ t, binaryOperation check f s = .next t := by
  obtain ⟨_, h⟩ | ⟨_, _, _, h⟩ | ⟨_, _, h⟩ := binaryOperation_cases check f s
  all_goals exact ⟨_, h⟩

/-- No instruction faults and none is refused, whatever the state. -/
theorem exists_exec_eq_next (i : Instr) (s : State) : ∃ t, exec i s = .next t := by
  cases i with
  | push v =>
    by_cases h : s.size = s.capacity
    · exact ⟨_, exec_push_of_full v h⟩
    · exact ⟨_, exec_push_of_not_full v h⟩
  | plus => exact exists_binaryOperation_eq_next noCheck plusValue s
  | minus => exact exists_binaryOperation_eq_next noCheck minusValue s
  | mult => exact exists_binaryOperation_eq_next noCheck multValue s
  | div => exact exists_binaryOperation_eq_next divisorCheck divValue s
  | jmp x => exact ⟨_, exec_jmp x s⟩
  | halt => exact ⟨_, rfl⟩

theorem existsUnique_next_of_exists {r : Result} (h : ∃ t, r = .next t) : ∃! t, r = .next t := by
  obtain ⟨t, rfl⟩ := h
  exact ⟨t, rfl, fun u hu => (Host.Outcome.next.inj hu).symm⟩

/-- Settles O10: a step has an outcome in every state, each of them a next state, and so has every instruction. -/
theorem everyStepAnswersOneNextState : Obligations.EveryStepAnswersOneNextState := by
  refine ⟨fun s => existsUnique_next_of_exists ?_, fun i s => existsUnique_next_of_exists (exists_exec_eq_next i s)⟩
  obtain ⟨t, hst, -⟩ := exists_stepOutcome s
  exact ⟨t, hst⟩

/-! ## Each trap and its condition -/

theorem StepOutcome.meetsIllegal_of_illegalInst {s t : State} (h : StepOutcome s t) (ht : t.trap = .illegalInst) :
    ∃ opc, MeetsIllegal s opc := by
  cases h with
  | illegal opc hm => exact ⟨opc, hm⟩
  | _ => simp at ht

/-- A step answers one state, so a trap that it raises is the trap of any state it answers. -/
theorem trap_of_step_of_raised {s t : State} {tr : Trap} (hst : step s = .next t)
    (h : ∃ u, step s = .next u ∧ Raised tr s u) : t.trap = tr := by
  obtain ⟨u, hsu, hraised⟩ := h
  obtain rfl : t = u := Host.Outcome.next.inj (hst.symm.trans hsu)
  exact hraised.trap

/-- Settles O11: each condition leads to its trap, and the outcome with a trap gives its condition back. -/
theorem eachTrapHasItsCondition : Obligations.EachTrapHasItsCondition := by
  intro s t hst
  have ho : StepOutcome s t := stepOutcome_of_step hst
  refine ⟨⟨ho.running_and_out_of_range, ?fetch⟩, ⟨ho.meetsIllegal_of_illegalInst, ?illegal⟩,
    ⟨fun ht => ?isPush, ?overflow⟩, ⟨fun ht => ?isBinary, ?underflow⟩,
    ⟨ho.executes_div_of_divisionByZero, ?zero⟩⟩
  case fetch =>
    rintro ⟨hh, hge⟩
    exact trap_of_step_of_raised hst (fetchOutsideTheProgramTraps s hh hge).2
  case illegal =>
    rintro ⟨opc, hm⟩
    exact trap_of_step_of_raised hst ⟨_, step_of_illegal hm, raised_withTrap .illegalInst s⟩
  case isPush =>
    obtain ⟨⟨v, hv⟩, hfull⟩ := ho.executes_push_of_overflow ht
    exact ⟨v, hv, hfull⟩
  case overflow =>
    rintro ⟨v, hv, hfull⟩
    exact trap_of_step_of_raised hst (step_of_executes hv ▸ exec_push_raises_overflow v hfull)
  case isBinary =>
    obtain ⟨⟨i, hi, he⟩, hlt⟩ := ho.executes_binary_of_underflow ht
    exact ⟨i, hi, he, hlt⟩
  case underflow =>
    rintro ⟨i, hi, he, hlt⟩
    exact trap_of_step_of_raised hst (step_of_executes he ▸ exec_binary_raises_underflow hi hlt)
  case zero =>
    rintro ⟨hdiv, hsize, htop⟩
    exact trap_of_step_of_raised hst (step_of_executes hdiv ▸ exec_div_raises_divisionByZero hsize htop)

/-! ## The trap output -/

/-- Two states that agree on the machine differ in the trap output alone. -/
theorem SameMachine.eq_withTrap {s u : State} (h : SameMachine s u) : u = s.withTrap u.trap := by
  obtain ⟨hstack, hip, hhalted, hprog, hcapacity⟩ := h
  cases u
  simp_all [State.withTrap]

/-- 10_state.md R18: every field that the step's definitions look at is the same whatever the trap output is. -/
theorem step_withTrap (s : State) (tr : Trap) : step (s.withTrap tr) = step s := rfl

theorem accesses_withTrap (s : State) (tr : Trap) : accesses (s.withTrap tr) = accesses s := rfl

theorem step_of_sameMachine {s u : State} (h : SameMachine s u) : step u = step s := by
  rw [h.eq_withTrap, step_withTrap]

/-- Settles O13: the states differ in the trap output alone, and neither function looks at it. -/
theorem noStepReadsTheTrapOutput : Obligations.NoStepReadsTheTrapOutput := by
  intro s u h
  exact ⟨step_of_sameMachine h, by rw [h.eq_withTrap, accesses_withTrap]⟩

/-- Settles O12: a trap leaves the machine as it was, and the step of the same machine is the same step. -/
theorem trappingStepWritesNothingAndRepeats : Obligations.TrappingStepWritesNothingAndRepeats := by
  intro s t hst htrap
  have hsame : SameMachine s t := (stepOutcome_of_step hst).sameMachine_of_trap_ne_ok htrap
  exact ⟨hsame, (step_of_sameMachine hsame).trans hst⟩

/-! ## The block and its ports (40_execution_engine.md R71) -/

/-- Settles O53: `prog_len` decides the fetch as PROG_LEN does, and in range `fetch_word` is the fetched word. -/
theorem blockWithItsPortsDoesTheStep : Obligations.BlockWithItsPortsDoesTheStep := by
  intro s progLen fetchWord hlen hword
  unfold portStep
  cases hh : s.halted with
  | true => rw [if_pos rfl, step_of_halted hh]; rfl
  | false =>
    rw [if_neg (by simp)]
    by_cases hlt : uint (fetchIndex s) < uint progLen
    · have hf : fetch s = some fetchWord := (fetch_eq_getElem? s).trans (hword hlt)
      rw [if_pos hlt, step_of_fetch hh hf]
    · have hf : fetch s = none := (fetch_eq_none_iff s).mpr (hlen ▸ Nat.le_of_not_lt hlt)
      rw [if_neg hlt, step_of_noFetch hh hf]; rfl

end Sys2Proof.Machine
end

section
/-! PROOFS. Reset and reachable states (70_reset_and_hazards.md R150 to R153, 10_state.md R22): the parameters, what a
reset leaves, and the invariants along any sequence of requests. -/

namespace Sys2Proof.Machine

/-! ## The parameters and the reset -/

/-- Settles O15: a step has the parameters in its frame, and a reset writes neither. -/
theorem parametersChangeOnlyWithANewRun : Obligations.ParametersChangeOnlyWithANewRun := by
  intro r s t h
  obtain ⟨rfl, hst⟩ | ⟨rfl, rfl⟩ | ⟨p, rfl, rfl⟩ := serve_cases h
  · have ho : StepOutcome s t := stepOutcome_of_step hst
    exact ⟨ho.capacity_eq, fun _ => ho.prog_eq, by simp⟩
  · exact ⟨rfl, fun _ => rfl, by simp⟩
  · exact ⟨rfl, fun hne => absurd rfl (hne p), fun q hq => Request.newRun.inj hq⟩

/-- Settles O31: a reset request writes the four values of the reset state and nothing else. -/
theorem resetValues : Obligations.ResetValues :=
  fun _ => ⟨rfl, rfl, rfl, rfl, rfl, rfl, rfl, rfl, rfl, rfl, rfl⟩

/-- A reset leaves what a fresh core with the same parameters has. -/
theorem resetRequest_eq_fresh (s : State) : resetRequest s = fresh s.prog s.capacity := rfl

/-- Settles O32: of the old state only the parameters are in the state after reset. -/
theorem nothingSurvivesReset : Obligations.NothingSurvivesReset := by
  refine ⟨fun s u hp hc => ?_, fun s i => ?_, fun p s => rfl⟩
  · rw [resetRequest_eq_fresh, resetRequest_eq_fresh, hp, hc]
  · rw [State.cell_eq_none_iff, resetRequest_size]
    exact Nat.zero_le i

/-- Settles O34: the reset state has an empty stack, an empty program and `ip` 0. -/
theorem resetMeetsTheBounds : Obligations.ResetMeetsTheBounds :=
  ⟨⟨Nat.zero_le _, reset_prog_wf⟩, .inl (Nat.zero_le _)⟩

/-! ## Reachable states -/

/-- What holds of every reachable state (10_state.md R22): the bounds, a justified `ip`, and that a state whose last step
trapped is running and steps to itself. -/
structure Sound (s : State) : Prop where
  wf : s.wf
  ip : IpJustified s
  trapped : s.trap ≠ .ok → s.halted = false ∧ step s = .next s

theorem sound_fresh {p : Program} (hp : Program.wf p) (c : Nat) : Sound (fresh p c) :=
  ⟨⟨Nat.zero_le _, hp⟩, .inl (Nat.zero_le _), fun h => absurd rfl h⟩

/-- A step that traps was taken by a running machine, which still runs. -/
theorem running_of_trap_ne_ok {s t : State} (hst : step s = .next t) (htrap : t.trap ≠ .ok) : t.halted = false := by
  have hsame : SameMachine s t := (trappingStepWritesNothingAndRepeats s t hst htrap).1
  rw [hsame.halted, ← Bool.not_eq_true]
  exact fun hh => htrap (ok_and_sameMachine_of_halted_step hst hh).1

theorem sound_of_step {s t : State} (hs : Sound s) (hst : step s = .next t) : Sound t :=
  ⟨(stepOutcome_of_step hst).wf hs.wf, ipJustified_of_step hs.wf hs.ip hst, fun htrap =>
    ⟨running_of_trap_ne_ok hst htrap, (trappingStepWritesNothingAndRepeats s t hst htrap).2⟩⟩

theorem sound_of_serve {r : Request} {s t : State} (hr : r.wf) (hs : Sound s) (h : serve r s = .next t) : Sound t := by
  obtain ⟨-, hst⟩ | ⟨-, rfl⟩ | ⟨p, rfl, rfl⟩ := serve_cases h
  · exact sound_of_step hs hst
  · exact sound_fresh hs.wf.2 s.capacity
  · exact sound_fresh hr s.capacity

/-- The requests of a sequence are served one by one. -/
theorem serveAll_cons_eq_next_iff (r : Request) (rs : List Request) (s t : State) :
    serveAll (r :: rs) s = .next t ↔ ∃ u, serve r s = .next u ∧ serveAll rs u = .next t := by
  rw [serveAll]
  cases serve r s <;> simp

theorem sound_of_serveAll {rs : List Request} {s t : State} (hrs : ∀ r, r ∈ rs → r.wf) (hs : Sound s)
    (h : serveAll rs s = .next t) : Sound t := by
  induction rs generalizing s with
  | nil =>
    obtain rfl : s = t := Host.Outcome.next.inj h
    exact hs
  | cons r rs ih =>
    obtain ⟨u, hu, ht⟩ := (serveAll_cons_eq_next_iff r rs s t).mp h
    exact ih (fun q hq => hrs q (List.mem_cons_of_mem r hq)) (sound_of_serve (hrs r List.mem_cons_self) hs hu) ht

/-- Settles O40: a fresh core is sound, and every request keeps that. -/
theorem reachableStatesAreSound : Obligations.ReachableStatesAreSound := by
  rintro s ⟨p, c, rs, hp, hrs, hrun⟩
  obtain ⟨hwf, hip, htrapped⟩ := sound_of_serveAll hrs (sound_fresh hp c) hrun
  exact ⟨hwf, hip, htrapped⟩

end Sys2Proof.Machine
end

section
/-! PROOFS. Sequences of steps (10_state.md R22 (c), 41_push.md R91, 43_control.md R114): what every step keeps holds along
a sequence, and a sequence of OK steps goes where the program and `ip` alone send it. -/

namespace Sys2Proof.Machine

/-! ## Invariants along a sequence -/

/-- What every step keeps and the first state has, each state of the sequence has. -/
theorem StepSequence.invariant {f : Nat → State} {n : Nat} {P : State → Prop} (hf : StepSequence f n)
    (hstep : ∀ s t, step s = .next t → P s → P t) (h0 : P (f 0)) : ∀ k, k ≤ n → P (f k) := by
  intro k hk
  induction k with
  | zero => exact h0
  | succ k ih => exact hstep _ _ (hf k hk) (ih (Nat.le_of_succ_le hk))

theorem StepSequence.shift {f : Nat → State} {m n : Nat} (hf : StepSequence f (m + n)) :
    StepSequence (fun k => f (m + k)) n :=
  fun k hk => hf (m + k) (Nat.add_lt_add_left hk m)

theorem AllOk.shift {f : Nat → State} {m n : Nat} (hf : AllOk f (m + n)) : AllOk (fun k => f (m + k)) n :=
  fun k hk => hf (m + k) (Nat.add_lt_add_left hk m)

theorem StepSequence.prog_eq {f : Nat → State} {n : Nat} (hf : StepSequence f n) :
    ∀ k, k ≤ n → (f k).prog = (f 0).prog :=
  hf.invariant (P := fun s => s.prog = (f 0).prog) (fun _ _ hst h => (stepOutcome_of_step hst).prog_eq.trans h) rfl

/-- 10_state.md R16: no step clears the flag, so a machine that still runs has run all along. -/
theorem StepSequence.running_of_running {f : Nat → State} {m : Nat} (hf : StepSequence f m)
    (hm : (f m).halted = false) {k : Nat} (hk : k ≤ m) : (f k).halted = false := by
  obtain ⟨d, rfl⟩ := Nat.exists_eq_add_of_le hk
  rw [← Bool.not_eq_true]
  intro hhalted
  have hend : (f (k + d)).halted = true :=
    hf.shift.invariant (P := fun s => s.halted = true) (fun _ _ hst h => (halted_iff_of_step hst).mpr (.inl h))
      hhalted d le_rfl
  simp [hm] at hend

/-- Settles O42: a binary operation finds two values and leaves one of them, and no other step lowers `size`. -/
theorem stackOnceNonemptyStaysNonempty : Obligations.StackOnceNonemptyStaysNonempty := by
  intro f n hf h0
  refine hf.invariant (P := fun s => 1 ≤ s.size) (fun s t hst hs => ?_) h0
  obtain ⟨ht, -⟩ | ⟨-, -, -, ht, -⟩ | ⟨-, -, -, hge, ht, -⟩ := (stepOutcome_of_step hst).size_cases <;> omega

/-! ## `ip` as a count of OK steps -/

/-- Without JMP a running machine's `ip` counts the OK step, and a step that traps leaves it. -/
theorem uint_ip_of_step_without_jmp {s t : State} (hst : step s = .next t) (hp : Program.wf s.prog)
    (hh : s.halted = false) (hjmp : ∀ x, ¬ Executes s (.jmp x)) (hle : uint s.ip ≤ s.progLen) :
    uint t.ip ≤ s.progLen ∧ uint t.ip = uint s.ip + if t.trap = .ok then 1 else 0 := by
  obtain ⟨hkept, hip⟩ | ⟨x, hx, -⟩ | ⟨i, hi, -, hip, hok⟩ := (stepOutcome_of_step hst).ip_cases
  · have htrap : t.trap ≠ .ok := hkept.resolve_left (by simp [hh])
    rw [hip, if_neg htrap]
    exact ⟨hle, rfl⟩
  · exact absurd hx (hjmp x)
  · obtain ⟨hadd, hbound⟩ := uint_ip_add_one_of_executes hp hi
    rw [hip, if_pos hok]
    exact ⟨hbound, hadd⟩

/-- Settles O43: by induction on the length of the sequence, each step adds to `ip` what it adds to the count. -/
theorem ipCountsTheOkSteps : Obligations.IpCountsTheOkSteps := by
  intro f n hf h0 hp hn hjmp
  have hcount : ∀ k, k ≤ n → uint (f k).ip ≤ (f k).progLen ∧
      uint (f k).ip = (List.range k).countP (fun j => decide ((f (j + 1)).trap = .ok)) := by
    intro k hk
    induction k with
    | zero =>
      have hip : uint (f 0).ip = 0 := by rw [h0, resetRequest_ip]; rfl
      exact ⟨hip.trans_le (Nat.zero_le _), hip⟩
    | succ k ih =>
      obtain ⟨hle, hip⟩ := ih (Nat.le_of_succ_le hk)
      have hst : step (f k) = .next (f (k + 1)) := hf k hk
      have hprog : (f (k + 1)).prog = (f k).prog := (stepOutcome_of_step hst).prog_eq
      have hpk : Program.wf (f k).prog := hf.prog_eq k (Nat.le_of_succ_le hk) ▸ hp
      obtain ⟨hle', hip'⟩ := uint_ip_of_step_without_jmp hst hpk
        (hf.running_of_running hn (Nat.le_of_succ_le hk)) (hjmp k hk) hle
      refine ⟨by rwa [State.progLen, hprog], ?_⟩
      rw [hip', hip, List.range_succ, List.countP_append]
      simp
  exact hcount n le_rfl

/-! ## The path does not depend on values -/

/-- What is executed depends on `halted`, the program and `ip` alone. -/
theorem executes_congr {s u : State} {i : Instr} (hp : s.prog = u.prog) (hi : s.ip = u.ip)
    (hh : s.halted = u.halted) (h : Executes s i) : Executes u i :=
  ⟨hh ▸ h.running, fetch_congr hp hi ▸ h.word⟩

/-- 43_control.md R114: where two machines execute alike and both return OK, they go on to the same index and flag. -/
theorem same_path_of_ok_steps {s u s' u' : State} (hs : step s = .next s') (hu : step u = .next u')
    (hsok : s'.trap = .ok) (huok : u'.trap = .ok) (hp : s.prog = u.prog) (hi : s.ip = u.ip)
    (hh : s.halted = u.halted) : s'.ip = u'.ip ∧ s'.halted = u'.halted := by
  have hexec : ∀ i, Executes s i ↔ Executes u i := fun i =>
    ⟨executes_congr hp hi hh, executes_congr hp.symm hi.symm hh.symm⟩
  obtain ⟨huhalted, -, hujmp, hunext⟩ := howEachStepChangesIp u u' hu
  constructor
  · obtain ⟨hkept, hip⟩ | ⟨x, hx, hip, -⟩ | ⟨i, he, hne, hip, -⟩ := (stepOutcome_of_step hs).ip_cases
    · have hhalted : s.halted = true := hkept.resolve_right (by simp [hsok])
      rw [hip, hi, huhalted (hh ▸ hhalted)]
    · rw [hip, hujmp x ((hexec _).mp hx)]
    · rw [hip, hi, (hunext i ((hexec i).mp he) hne huok).1]
  · rw [Bool.eq_iff_iff, halted_iff_of_step hs, halted_iff_of_step hu, hh, hexec]

/-- Settles O44: by induction, the two machines agree on all that decides what the next OK step does to `ip`. -/
theorem pathDoesNotDependOnValues : Obligations.PathDoesNotDependOnValues := by
  intro f g n hf hg hfok hgok hp hi hh k hk
  induction k with
  | zero => exact ⟨hi, hh⟩
  | succ k ih =>
    obtain ⟨hik, hhk⟩ := ih (Nat.le_of_succ_le hk)
    have hpk : (f k).prog = (g k).prog := by
      rw [hf.prog_eq k (Nat.le_of_succ_le hk), hg.prog_eq k (Nat.le_of_succ_le hk), hp]
    exact same_path_of_ok_steps (hf k hk) (hg k hk) (hfok k hk) (hgok k hk) hpk hik hhk

/-- Settles O45: the sequence from its return on goes the way it went from its beginning, so by strong induction it halts
no more than it did one turn before. -/
theorem loopIsLeftOnlyByATrap : Obligations.LoopIsLeftOnlyByATrap := by
  intro f m n hf hok hm hmn hip hrun
  obtain ⟨d, rfl⟩ := Nat.exists_eq_add_of_le hmn
  have hfirst : ∀ k, k ≤ m → (f k).halted = false := fun k hk =>
    StepSequence.running_of_running (fun j hj => hf j (hj.trans_le hmn)) hrun hk
  have hturn : ∀ k, k ≤ d → (f k).halted = (f (m + k)).halted := fun k hk =>
    (pathDoesNotDependOnValues f (fun j => f (m + j)) d (fun j hj => hf j (by omega)) hf.shift
      (fun j hj => hok j (by omega)) hok.shift (hf.prog_eq m hmn).symm hip
      ((hfirst 0 (Nat.zero_le m)).trans hrun.symm) k hk).2
  intro k hk
  induction k using Nat.strong_induction_on with
  | _ k ih =>
    obtain hle | hlt := le_or_gt k m
    · exact hfirst k hle
    · obtain ⟨j, rfl⟩ := Nat.exists_eq_add_of_lt hlt
      rw [Nat.add_assoc, ← hturn (j + 1) (by omega)]
      exact ih (j + 1) (by omega) (by omega)

end Sys2Proof.Machine
end

section
/-! PROOFS. Arithmetic (42_arithmetic.md R95 to R101): what `wrap64` leaves of an exact result, the truncated quotient, and
the effect of the four binary operations on the stack. -/

namespace Sys2Proof.Machine

/-! ## Narrowing to 64 bits -/

theorem neg_two_pow_le_sint (a : Value) : -2 ^ 63 ≤ sint a := BitVec.le_toInt a

theorem sint_lt_two_pow (a : Value) : sint a < 2 ^ 63 := BitVec.toInt_lt

/-- `wrap64 m` is the one number in the signed range that is congruent to `m` modulo 2^64 (00_scope.md R6). -/
theorem sint_wrap64_eq_iff (m n : Int) :
    sint (wrap64 m) = n ↔ -2 ^ 63 ≤ n ∧ n < 2 ^ 63 ∧ (2 ^ 64 : Int) ∣ n - m := by
  rw [sint, wrap64, BitVec.toInt_ofInt, Int.bmod_eq_iff (by decide)]
  norm_num

theorem sint_wrap64_of_fits {n : Int} (hle : -2 ^ 63 ≤ n) (hlt : n < 2 ^ 63) : sint (wrap64 n) = n :=
  (sint_wrap64_eq_iff n n).mpr ⟨hle, hlt, by simp⟩

/-- A number off the signed range by less than its width is brought back by one turn of 2^64. -/
theorem sint_wrap64_of_near {n : Int} (hle : -2 ^ 64 ≤ n) (hlt : n < 2 ^ 64) :
    sint (wrap64 n) = if n ≥ 2 ^ 63 then n - 2 ^ 64 else if n < -2 ^ 63 then n + 2 ^ 64 else n := by
  rw [sint_wrap64_eq_iff]
  split
  · omega
  · split <;> omega

/-! ## The truncated quotient -/

/-- The remainder that truncated division implies is the library's. -/
theorem sub_mul_tdiv_eq_tmod (x y : Int) : x - y * tdiv x y = Int.tmod x y := by
  rw [tdiv_eq_int_tdiv, Int.tmod_def]

theorem tdiv_nonpos_of_signs_differ {x y : Int} (h : (0 ≤ x ∧ y ≤ 0) ∨ (x ≤ 0 ∧ 0 ≤ y)) : tdiv x y ≤ 0 := by
  rw [tdiv_eq_int_tdiv]
  obtain ⟨hx, hy⟩ | ⟨hx, hy⟩ := h
  · exact Int.tdiv_nonpos_of_nonneg_of_nonpos hx hy
  · have hneg : 0 ≤ (-x).tdiv y := Int.tdiv_nonneg (Int.neg_nonneg_of_nonpos hx) hy
    rw [Int.neg_tdiv] at hneg
    omega

theorem tdiv_nonneg_of_signs_agree {x y : Int} (h : (0 ≤ x ∧ 0 ≤ y) ∨ (x ≤ 0 ∧ y ≤ 0)) : 0 ≤ tdiv x y := by
  rw [tdiv_eq_int_tdiv]
  obtain ⟨hx, hy⟩ | ⟨hx, hy⟩ := h
  · exact Int.tdiv_nonneg hx hy
  · exact Int.tdiv_nonneg_of_nonpos_of_nonpos hx hy

theorem tmod_nonpos {x : Int} (y : Int) (hx : x ≤ 0) : Int.tmod x y ≤ 0 := by
  have hneg : 0 ≤ (-x).tmod y := Int.tmod_nonneg y (Int.neg_nonneg_of_nonpos hx)
  rw [Int.neg_tmod] at hneg
  omega

/-- Settles O29: the quotient by the signs of its operands, and the implied remainder as the library's `Int.tmod`. -/
theorem divisionTruncatesTowardZero : Obligations.DivisionTruncatesTowardZero := by
  intro x y hy
  rw [sub_mul_tdiv_eq_tmod]
  refine ⟨?magnitude, fun hagree => tdiv_nonneg_of_signs_agree (by omega),
    fun hx hdiffer => tdiv_nonpos_of_signs_differ (by omega), ?remainder, Int.tmod_nonneg y, tmod_nonpos y⟩
  case magnitude =>
    rw [tdiv_eq_int_tdiv]
    exact Int.natAbs_tdiv x y
  case remainder =>
    rw [Int.natAbs_tmod]
    exact Nat.mod_lt _ (Int.natAbs_pos.mpr hy)

/-! ## The four functions as bit-vector operations -/

theorem wrap64_sint (a : Value) : wrap64 (sint a) = a := BitVec.ofInt_toInt

theorem plusValue_eq_add (a b : Value) : plusValue a b = a + b :=
  calc wrap64 (sint a + sint b) = wrap64 (sint a) + wrap64 (sint b) := BitVec.ofInt_add _ _
    _ = a + b := by rw [wrap64_sint, wrap64_sint]

theorem minusValue_eq_sub (a b : Value) : minusValue a b = a - b :=
  BitVec.eq_of_toInt_eq (by rw [minusValue, wrap64, BitVec.toInt_ofInt, BitVec.toInt_sub]; rfl)

theorem multValue_eq_mul (a b : Value) : multValue a b = a * b :=
  calc wrap64 (sint a * sint b) = wrap64 (sint a) * wrap64 (sint b) := BitVec.ofInt_mul _ _
    _ = a * b := by rw [wrap64_sint, wrap64_sint]

theorem divValue_eq_sdiv (a b : Value) : divValue a b = a.sdiv b :=
  BitVec.eq_of_toInt_eq (by rw [divValue, wrap64, BitVec.toInt_ofInt, BitVec.toInt_sdiv, tdiv_eq_int_tdiv]; rfl)

/-- Settles O30: wrapping commutes with the ring operations, and the signed divider wraps the truncated quotient. -/
theorem arithmeticIsTwosComplement : Obligations.ArithmeticIsTwosComplement :=
  fun a b => ⟨plusValue_eq_add a b, minusValue_eq_sub a b, multValue_eq_mul a b, fun _ => divValue_eq_sdiv a b⟩

/-! ## The results as signed numbers -/

theorem sint_eq_iff {a b : Value} : sint a = sint b ↔ a = b := BitVec.toInt_inj

/-- Decision D6: the one quotient of two 64-bit numbers that does not fit wraps to INT64_MIN. -/
theorem divValue_int64Min_neg_one : divValue int64Min (-1#64) = int64Min := by
  rw [divValue_eq_sdiv]
  exact BitVec.intMin_sdiv_neg_one

theorem sint_divValue {a b : Value} (h : ¬ (a = int64Min ∧ b = -1#64)) :
    sint (divValue a b) = tdiv (sint a) (sint b) := by
  rw [divValue_eq_sdiv, tdiv_eq_int_tdiv]
  exact BitVec.toInt_sdiv_of_ne_or_ne a b (not_and_or.mp h)

theorem sint_eq_neg_two_pow_iff (a : Value) : sint a = -2 ^ 63 ↔ a = int64Min := sint_eq_iff (b := int64Min)

theorem sint_eq_neg_one_iff (b : Value) : sint b = -1 ↔ b = -1#64 := sint_eq_iff (b := -1#64)

/-- Settles O27: sums and differences are at most one turn off, products are reduced, and one quotient does not fit. -/
theorem arithmeticResultTable : Obligations.ArithmeticResultTable := by
  intro a b
  have ha := neg_two_pow_le_sint a
  have ha' := sint_lt_two_pow a
  have hb := neg_two_pow_le_sint b
  have hb' := sint_lt_two_pow b
  refine ⟨sint_wrap64_of_near (by omega) (by omega), sint_wrap64_of_near (by omega) (by omega),
    (sint_wrap64_eq_iff _ _).mp rfl, fun _ => ?quotient⟩
  case quotient =>
    simp only [sint_eq_neg_two_pow_iff, sint_eq_neg_one_iff]
    by_cases h : a = int64Min ∧ b = -1#64
    · obtain ⟨rfl, rfl⟩ := h
      rw [if_pos ⟨rfl, rfl⟩, divValue_int64Min_neg_one, (sint_eq_neg_two_pow_iff _).mpr rfl]
    · rw [if_neg h, sint_divValue h]

/-- Settles O28: a number in range is its own reduction, and the one quotient that wraps is not below 2^63. -/
theorem resultsThatFitAreExact : Obligations.ResultsThatFitAreExact := by
  intro a b
  refine ⟨sint_wrap64_of_fits, sint_wrap64_of_fits, sint_wrap64_of_fits, fun _ hlt => sint_divValue ?_⟩
  rintro ⟨rfl, rfl⟩
  exact absurd hlt (by decide)

/-! ## The binary operations on two values -/

theorem binaryOperation_of_check_eq_some {check : Value → Option Trap} (f : Value → Value → Value) {s : State}
    {tr : Trap} (h : ¬ s.size < 2) (hc : check (rightOperand s h) = some tr) :
    binaryOperation check f s = .next (s.withTrap tr) := by
  simp [binaryOperation, h, hc, raise]

theorem binaryOperation_of_check_eq_none {check : Value → Option Trap} (f : Value → Value → Value) {s : State}
    (h : ¬ s.size < 2) (hc : check (rightOperand s h) = none) :
    binaryOperation check f s =
      .next ((s.replaceTopTwo (f (leftOperand s h) (rightOperand s h))).advance.withTrap .ok) := by
  simp [binaryOperation, h, hc, complete]

/-- 42_arithmetic.md R95: with two values and a passed check the operation completes, its result in the left cell. -/
theorem exists_binaryEffect {check : Value → Option Trap} (f : Value → Value → Value) {s : State} {a b : Value}
    (hsize : 2 ≤ s.size) (hleft : s.cell (s.size - 2) = some a) (hright : s.cell (s.size - 1) = some b)
    (hcheck : check b = none) :
    ∃ t, binaryOperation check f s = .next t ∧ BinaryEffect (f a b) s t := by
  have hge : ¬ s.size < 2 := Nat.not_lt.mpr hsize
  obtain rfl := (leftOperand_eq_iff s hge a).mpr hleft
  obtain rfl := (rightOperand_eq_iff s hge b).mpr hright
  refine ⟨_, binaryOperation_of_check_eq_none f hge hcheck, ?effect⟩
  case effect =>
    exact ⟨s.replaceTopTwo_cell_top _, s.replaceTopTwo_size _ hge, s.replaceTopTwo_cell_below _, rfl, rfl, rfl, rfl, rfl⟩

/-- Settles O17: the sum is wrapped. -/
theorem plusLeavesTheSum : Obligations.PlusLeavesTheSum := by
  intro s a b hsize hleft hright
  obtain ⟨t, hexec, heffect⟩ := exists_binaryEffect (check := noCheck) plusValue hsize hleft hright rfl
  exact ⟨t, plusValue a b, hexec, uint_wrap64 _, heffect⟩

/-- Settles O18: the difference is wrapped. -/
theorem minusLeavesTheDifference : Obligations.MinusLeavesTheDifference := by
  intro s a b hsize hleft hright
  obtain ⟨t, hexec, heffect⟩ := exists_binaryEffect (check := noCheck) minusValue hsize hleft hright rfl
  exact ⟨t, minusValue a b, hexec, uint_wrap64 _, heffect⟩

/-- The low half of the product is the same for the unsigned reading of the operands (42_arithmetic.md R98). -/
theorem uint_multValue (a b : Value) : (uint (multValue a b) : Int) = ((uint a : Int) * (uint b : Int)) % 2 ^ 64 := by
  rw [multValue_eq_mul, uint, BitVec.toNat_mul]
  norm_cast

/-- Settles O19: the product is wrapped, and bit-vector multiplication reads its operands unsigned. -/
theorem multLeavesTheLowProduct : Obligations.MultLeavesTheLowProduct := by
  intro s a b hsize hleft hright
  obtain ⟨t, hexec, heffect⟩ := exists_binaryEffect (check := noCheck) multValue hsize hleft hright rfl
  exact ⟨t, multValue a b, hexec, uint_wrap64 _, uint_multValue a b, heffect⟩

/-- Settles O20: a divisor other than zero passes DIV's check, and one pair of operands has a quotient that wraps. -/
theorem divLeavesTheTruncatedQuotient : Obligations.DivLeavesTheTruncatedQuotient := by
  intro s a b hsize hleft hright hb
  obtain ⟨t, hexec, heffect⟩ :=
    exists_binaryEffect divValue hsize hleft hright ((divisorCheck_eq_none_iff b).mpr hb)
  refine ⟨t, divValue a b, hexec, heffect, ?_⟩
  rw [sint_eq_neg_one_iff, ← tdiv_eq_int_tdiv]
  refine ⟨?wraps, sint_divValue⟩
  case wraps =>
    rintro ⟨rfl, rfl⟩
    exact divValue_int64Min_neg_one

end Sys2Proof.Machine
end

section
/-! PROOFS. The run loop (40_execution_engine.md R80, R81): its turns, its two ends, its fuel, and the runs of HALT and of
a JMP to itself. -/

namespace Sys2Proof.Machine

/-! ## The turns of the loop -/

theorem runLoop_succ_of_trap {s t : State} (n : Nat) (hh : s.halted = false) (hst : step s = .next t)
    (htrap : t.trap ≠ .ok) : runLoop (n + 1) s = .trapped t.trap t := by
  simp [runLoop, hh, hst, htrap]

theorem runLoop_succ_of_ok {s t : State} (n : Nat) (hh : s.halted = false) (hst : step s = .next t)
    (hok : t.trap = .ok) : runLoop (n + 1) s = runLoop n t := by
  simp [runLoop, hh, hst, hok]

theorem runLoop_zero_of_running {s : State} (hh : s.halted = false) : runLoop 0 s = .outOfFuel s := by
  simp [runLoop, hh]

/-- Settles O46: the three turns exclude each other by the flag and the trap that the step returns. -/
theorem runLoopFollowsItsDefinition : Obligations.RunLoopFollowsItsDefinition :=
  ⟨fun n _ => runLoop_of_halted n, fun n _ _ => runLoop_succ_of_trap n, fun n _ _ => runLoop_succ_of_ok n⟩

/-! ## How a run ends -/

/-- What a run from `s` can end with (40_execution_engine.md R81). A run of no turn at all ends in `s` itself, whose trap
output may be anything; hence the premise of the first clause. -/
def RunEnd (s : State) : RunResult → Prop
  | .halted t => t.halted = true ∧ t.prog = s.prog ∧ t.capacity = s.capacity ∧
      (s.halted = false ∨ s.trap = .ok → t.trap = .ok)
  | .trapped tr t => tr ≠ .ok ∧ t.trap = tr ∧ t.halted = false ∧ step t = .next t ∧
      t.prog = s.prog ∧ t.capacity = s.capacity
  | .outOfFuel _ => True
  | .refused _ => False

theorem runEnd_of_halted {s : State} (hh : s.halted = true) : RunEnd s (.halted s) :=
  ⟨hh, rfl, rfl, fun h => h.resolve_left (by simp [hh])⟩

theorem runEnd_of_trap {s t : State} (hst : step s = .next t) (htrap : t.trap ≠ .ok) :
    RunEnd s (.trapped t.trap t) := by
  have ho : StepOutcome s t := stepOutcome_of_step hst
  exact ⟨htrap, rfl, running_of_trap_ne_ok hst htrap, (trappingStepWritesNothingAndRepeats s t hst htrap).2,
    ho.prog_eq, ho.capacity_eq⟩

/-- A run's end after an OK step is an end of the run from before that step. -/
theorem RunEnd.of_ok_step {s t : State} {r : RunResult} (hst : step s = .next t) (hok : t.trap = .ok)
    (h : RunEnd t r) : RunEnd s r := by
  have ho : StepOutcome s t := stepOutcome_of_step hst
  cases r with
  | halted u =>
    obtain ⟨hh, hp, hc, ht⟩ := h
    exact ⟨hh, hp.trans ho.prog_eq, hc.trans ho.capacity_eq, fun _ => ht (.inr hok)⟩
  | trapped tr u =>
    obtain ⟨hne, ht, hh, hrep, hp, hc⟩ := h
    exact ⟨hne, ht, hh, hrep, hp.trans ho.prog_eq, hc.trans ho.capacity_eq⟩
  | outOfFuel u => trivial
  | refused e => exact h

theorem runEnd_runLoop (n : Nat) (s : State) : RunEnd s (runLoop n s) := by
  induction n generalizing s with
  | zero =>
    cases hh : s.halted with
    | true => rw [runLoop_of_halted 0 hh]; exact runEnd_of_halted hh
    | false => rw [runLoop_zero_of_running hh]; trivial
  | succ n ih =>
    cases hh : s.halted with
    | true => rw [runLoop_of_halted (n + 1) hh]; exact runEnd_of_halted hh
    | false =>
      obtain ⟨t, hst, -⟩ := exists_stepOutcome s
      by_cases hok : t.trap = .ok
      · rw [runLoop_succ_of_ok n hh hst hok]
        exact (ih t).of_ok_step hst hok
      · rw [runLoop_succ_of_trap n hh hst hok]
        exact runEnd_of_trap hst hok

/-- Settles O47: each end's clause is what the induction over the fuel carries through the turns. -/
theorem howARunEnds : Obligations.HowARunEnds := by
  intro n s
  have hend : RunEnd s (runLoop n s) := runEnd_runLoop n s
  refine ⟨fun t ht => ?halted, fun tr t ht => ?trapped, fun r hr => ?refused⟩
  case halted =>
    rw [ht] at hend
    obtain ⟨hh, hp, hc, htrap⟩ := hend
    exact ⟨hh, hp, hc, fun hrun => htrap (.inl hrun)⟩
  case trapped =>
    rw [ht] at hend
    exact hend
  case refused =>
    rw [hr] at hend
    exact hend

/-! ## Fuel -/

/-- Settles O48: by induction on the fuel; only a run that ends for lack of it looks at it. -/
theorem moreFuelDoesNotChangeAnEnd : Obligations.MoreFuelDoesNotChangeAnEnd := by
  intro n m s r hr hne
  subst hr
  induction n generalizing s with
  | zero =>
    cases hh : s.halted with
    | true => rw [runLoop_of_halted _ hh, runLoop_of_halted _ hh]
    | false => exact absurd (runLoop_zero_of_running hh) (hne s)
  | succ n ih =>
    rw [Nat.add_right_comm]
    cases hh : s.halted with
    | true => rw [runLoop_of_halted _ hh, runLoop_of_halted _ hh]
    | false =>
      obtain ⟨t, hst, -⟩ := exists_stepOutcome s
      by_cases hok : t.trap = .ok
      · rw [runLoop_succ_of_ok n hh hst hok] at hne ⊢
        rw [runLoop_succ_of_ok (n + m) hh hst hok, ih t hne]
      · rw [runLoop_succ_of_trap n hh hst hok, runLoop_succ_of_trap (n + m) hh hst hok]

/-! ## HALT and the JMP to itself -/

/-- Settles O26: HALT's one outcome is halted with the trap output OK, so that a further step rewrites nothing. -/
theorem haltStopsTheMachine : Obligations.HaltStopsTheMachine :=
  fun opd s => ⟨decode_wordOf 0x06#8 opd, s.setHalted.advance.withTrap .ok, rfl, rfl, rfl, rfl, rfl, rfl, rfl,
    step_of_halted rfl, fun n => runLoop_of_halted n rfl, rfl⟩

/-- 43_control.md R110 (a): a JMP to its own index writes the `ip` that is there. -/
theorem step_of_executes_self_jmp {s : State} (h : Executes s (.jmp s.ip)) : step s = .next (s.withTrap .ok) :=
  step_of_executes h

/-- What a step executes does not depend on the trap output. -/
theorem executes_withTrap {s : State} {i : Instr} (tr : Trap) (h : Executes s i) : Executes (s.withTrap tr) i :=
  ⟨h.running, h.word⟩

theorem runLoop_of_self_jmp {s : State} (n : Nat) (h : Executes s (.jmp s.ip)) :
    runLoop (n + 1) s = .outOfFuel (s.withTrap .ok) := by
  induction n generalizing s with
  | zero =>
    rw [runLoop_succ_of_ok 0 h.running (step_of_executes_self_jmp h) rfl]
    exact runLoop_zero_of_running h.running
  | succ n ih =>
    rw [runLoop_succ_of_ok (n + 1) h.running (step_of_executes_self_jmp h) rfl]
    exact ih (executes_withTrap .ok h)

theorem serveAll_steps_of_self_jmp {s : State} (n : Nat) (h : Executes s (.jmp s.ip)) :
    serveAll (List.replicate (n + 1) .step) s = .next (s.withTrap .ok) := by
  induction n generalizing s with
  | zero => exact (serveAll_cons_eq_next_iff _ _ _ _).mpr ⟨_, step_of_executes_self_jmp h, rfl⟩
  | succ n ih =>
    exact (serveAll_cons_eq_next_iff _ _ _ _).mpr ⟨_, step_of_executes_self_jmp h, ih (executes_withTrap .ok h)⟩

/-- Settles O49: one turn leads to the same machine with the trap output OK, from where every turn does. -/
theorem selfJumpNeverEnds : Obligations.SelfJumpNeverEnds :=
  fun _ n h => ⟨runLoop_of_self_jmp n h, serveAll_steps_of_self_jmp n h⟩

end Sys2Proof.Machine
end

section
/-! PROOFS. The outputs of the block (40_execution_engine.md R71): the trap codes, the `size` output and the debug port. -/

namespace Sys2Proof.Machine

theorem Trap.ofCode_code (tr : Trap) : Trap.ofCode tr.code = some tr := by
  cases tr <;> rfl

/-- A code that stands for no trap is the code of none. -/
theorem Trap.code_ne_of_ofCode_eq_none {c : BitVec 3} (h : Trap.ofCode c = none) (tr : Trap) : tr.code ≠ c := by
  rintro rfl
  simp [Trap.ofCode_code] at h

/-- Settles O50: the decoder of the codes is a left inverse, and it has no trap for 6 and 7. -/
theorem trapCodesAreAsListed : Obligations.TrapCodesAreAsListed :=
  ⟨rfl, rfl, rfl, rfl, rfl, rfl, Trap.ofCode_code, fun s =>
    ⟨Trap.code_ne_of_ofCode_eq_none rfl s.trap, Trap.code_ne_of_ofCode_eq_none rfl s.trap⟩⟩

/-- 00_scope.md R5: the widths that hold `c` are those from SIZEW on. -/
theorem sizeWidth_le_iff (c w : Nat) : sizeWidth c ≤ w ↔ c < 2 ^ w := by
  unfold sizeWidth
  split
  · rename_i h; simp [h]
  · rename_i h; exact Nat.log2_lt h

theorem lt_two_pow_sizeWidth (c : Nat) : c < 2 ^ sizeWidth c := (sizeWidth_le_iff c _).mp le_rfl

/-- Settles O51: a `size` of at most `C` is below the power of two that `C` is below. -/
theorem sizeOutputLosesNothing : Obligations.SizeOutputLosesNothing := by
  refine ⟨fun c w => ⟨lt_two_pow_sizeWidth c, (sizeWidth_le_iff c w).mpr⟩, ?width, fun s hs => ?size⟩
  case width =>
    refine le_antisymm ((sizeWidth_le_iff 1028 11).mpr (by decide)) (Nat.lt_of_not_le fun h => ?_)
    exact absurd ((sizeWidth_le_iff 1028 10).mp h) (by decide)
  case size =>
    rw [sizePort, BitVec.toNat_ofNat]
    exact Nat.mod_eq_of_lt (hs.trans_lt (lt_two_pow_sizeWidth s.capacity))

/-- Settles O52: a cell has a value exactly below `size`, which a binary operation lowers to the old top's index. -/
theorem cellsAboveSizeHaveNoValue : Obligations.CellsAboveSizeHaveNoValue := by
  refine fun s i => ⟨s.cell_eq_none_iff i, fun r t heffect _ => ?_⟩
  exact (t.cell_eq_none_iff _).mpr heffect.size.le

end Sys2Proof.Machine
end

section
/-! PROOFS. The access table against the step (20_memory.md R36): the cells listed as written are the only ones that a step
changes, and what it does depends on the cells listed as read alone. -/

namespace Sys2Proof.Machine

/-! ## Writes -/

theorem binaryAccess_of_check_eq_none {check : Value → Option Trap} {s : State} (ip : Nat) (h : ¬ s.size < 2)
    (hc : check (rightOperand s h) = none) :
    binaryAccess check ip s = ⟨[ip], [s.size - 2, s.size - 1], [s.size - 2]⟩ := by
  simp [binaryAccess, h, hc]

theorem binaryAccess_of_check_eq_some {check : Value → Option Trap} {s : State} {tr : Trap} (ip : Nat)
    (h : ¬ s.size < 2) (hc : check (rightOperand s h) = some tr) :
    binaryAccess check ip s = ⟨[ip], [s.size - 2, s.size - 1], []⟩ := by
  simp [binaryAccess, h, hc]

/-- A binary operation that completes writes the left operand's cell. -/
theorem instrAccess_stackWrites_of_binary {i : Instr} {f : Value → Value → Value} {s : State} (ip : Nat)
    (hi : (i, f) ∈ binaryFunctions) (hs : ¬ s.size < 2) (hb : i = .div → sint (rightOperand s hs) ≠ 0) :
    (instrAccess i ip s).stackWrites = [s.size - 2] := by
  simp only [binaryFunctions, List.mem_cons, Prod.mk.injEq, List.not_mem_nil, or_false] at hi
  obtain ⟨rfl, -⟩ | ⟨rfl, -⟩ | ⟨rfl, -⟩ | ⟨rfl, -⟩ := hi
  case inr.inr.inr =>
    rw [instrAccess, binaryAccess_of_check_eq_none ip hs ((divisorCheck_eq_none_iff _).mpr (hb rfl))]
  all_goals rw [instrAccess, binaryAccess_of_check_eq_none ip hs rfl]

/-- Settles O55: PUSH writes the cell at `size`, a binary operation the left operand's cell, no other outcome writes. -/
theorem stepWritesOnlyTheListedCells : Obligations.StepWritesOnlyTheListedCells := by
  intro s t hst i hlt hnot
  cases stepOutcome_of_step hst with
  | push v he hroom =>
    rw [accesses_of_executes he, instrAccess_push_of_not_full v _ hroom, List.mem_singleton] at hnot
    have hsize : i < s.size + 1 := by simpa using hlt
    exact s.pushCell_cell_below v i (by omega)
  | binary j f hj he hge hb =>
    rw [accesses_of_executes he, instrAccess_stackWrites_of_binary _ hj hge hb, List.mem_singleton] at hnot
    have hsize : i < s.size - 1 := s.replaceTopTwo_size _ hge ▸ hlt
    exact s.replaceTopTwo_cell_below _ i (by omega)
  | _ => rfl

/-! ## Reads -/

/-- Two machines that agree on all but the cells of the stack and the trap output. -/
structure SameOutsideStack (s u : State) : Prop where
  ip : s.ip = u.ip
  halted : s.halted = u.halted
  prog : s.prog = u.prog
  capacity : s.capacity = u.capacity
  size : s.size = u.size

/-- The two machines after a step answer alike, and hold the same values in the cells `ws`. -/
structure SameAnswer (ws : List Nat) (s' u' : State) : Prop where
  trap : s'.trap = u'.trap
  size : s'.size = u'.size
  ip : s'.ip = u'.ip
  halted : s'.halted = u'.halted
  cells : ∀ i, i ∈ ws → s'.cell i = u'.cell i

/-- Two results are next states that answer alike. -/
def SameResult (ws : List Nat) (r q : Result) : Prop := ∃ s' u', r = .next s' ∧ q = .next u' ∧ SameAnswer ws s' u'

section
variable {s u : State} (h : SameOutsideStack s u)
include h

theorem SameOutsideStack.sameAnswer_withTrap (tr : Trap) : SameAnswer [] (s.withTrap tr) (u.withTrap tr) :=
  ⟨rfl, h.size, h.ip, h.halted, by simp⟩

theorem SameOutsideStack.fetch_eq : fetch u = fetch s := fetch_congr h.prog.symm h.ip.symm

theorem SameOutsideStack.executes {i : Instr} (he : Executes s i) : Executes u i :=
  executes_congr h.prog h.ip h.halted he

/-- PUSH reads no cell: it finds both stacks full or neither, and writes its operand. -/
theorem SameOutsideStack.sameResult_push (v : Value) (ip : Nat) :
    SameResult (instrAccess (.push v) ip s).stackWrites (exec (.push v) s) (exec (.push v) u) := by
  by_cases hfull : s.size = s.capacity
  · have hfull' : u.size = u.capacity := by rw [← h.size, ← h.capacity, hfull]
    rw [instrAccess_push_of_full v ip hfull]
    exact ⟨_, _, exec_push_of_full v hfull, exec_push_of_full v hfull', h.sameAnswer_withTrap .stackOverflow⟩
  · have hfull' : u.size ≠ u.capacity := by rwa [← h.size, ← h.capacity]
    rw [instrAccess_push_of_not_full v ip hfull]
    refine ⟨_, _, exec_push_of_not_full v hfull, exec_push_of_not_full v hfull', rfl, by simp [h.size],
      congrArg (· + 1) h.ip, h.halted, fun i hi => ?written⟩
    case written =>
      rw [List.mem_singleton.mp hi]
      exact (s.pushCell_cell_top v).trans (h.size ▸ u.pushCell_cell_top v).symm

theorem SameOutsideStack.leftOperand_eq (hs : ¬ s.size < 2) (hu : ¬ u.size < 2)
    (hcell : s.cell (s.size - 2) = u.cell (s.size - 2)) : leftOperand u hu = leftOperand s hs := by
  rw [leftOperand_eq_iff, ← h.size, ← hcell, ← leftOperand_eq_iff s hs]

theorem SameOutsideStack.rightOperand_eq (hs : ¬ s.size < 2) (hu : ¬ u.size < 2)
    (hcell : s.cell (s.size - 1) = u.cell (s.size - 1)) : rightOperand u hu = rightOperand s hs := by
  rw [rightOperand_eq_iff, ← h.size, ← hcell, ← rightOperand_eq_iff s hs]

/-- A completed binary operation with the same result leaves it in the same cell. -/
theorem SameOutsideStack.sameAnswer_replaceTopTwo (r : Value) (hs : ¬ s.size < 2) (hu : ¬ u.size < 2) :
    SameAnswer [s.size - 2] ((s.replaceTopTwo r).advance.withTrap .ok) ((u.replaceTopTwo r).advance.withTrap .ok) := by
  refine ⟨rfl, ?size, congrArg (· + 1) h.ip, h.halted, fun i hi => ?written⟩
  case size =>
    rw [State.withTrap_size, State.withTrap_size, State.advance_size, State.advance_size,
      s.replaceTopTwo_size r hs, u.replaceTopTwo_size r hu, h.size]
  case written =>
    rw [List.mem_singleton.mp hi]
    exact (s.replaceTopTwo_cell_top r).trans (h.size ▸ u.replaceTopTwo_cell_top r).symm

/-- A binary operation reads its two operands, and they decide its check and its result. -/
theorem SameOutsideStack.sameResult_binaryOperation (check : Value → Option Trap) (f : Value → Value → Value) (ip : Nat)
    (hreads : ∀ i, i ∈ (binaryAccess check ip s).stackReads → s.cell i = u.cell i) :
    SameResult (binaryAccess check ip s).stackWrites (binaryOperation check f s) (binaryOperation check f u) := by
  by_cases hs : s.size < 2
  · rw [binaryAccess_of_size_lt_two check ip hs]
    exact ⟨_, _, binaryOperation_of_size_lt_two check f hs, binaryOperation_of_size_lt_two check f (h.size ▸ hs),
      h.sameAnswer_withTrap .stackUnderflow⟩
  · have hu : ¬ u.size < 2 := h.size ▸ hs
    obtain ⟨ws, -, haccess⟩ := binaryAccess_of_two_le_size check ip hs
    have hleft := h.leftOperand_eq hs hu (hreads _ (by simp [haccess]))
    have hright := h.rightOperand_eq hs hu (hreads _ (by simp [haccess]))
    cases hc : check (rightOperand s hs) with
    | some tr =>
      rw [binaryAccess_of_check_eq_some ip hs hc]
      exact ⟨_, _, binaryOperation_of_check_eq_some f hs hc, binaryOperation_of_check_eq_some f hu (hright ▸ hc),
        h.sameAnswer_withTrap tr⟩
    | none =>
      rw [binaryAccess_of_check_eq_none ip hs hc]
      refine ⟨_, _, binaryOperation_of_check_eq_none f hs hc, binaryOperation_of_check_eq_none f hu (hright ▸ hc), ?_⟩
      rw [hleft, hright]
      exact h.sameAnswer_replaceTopTwo _ hs hu

theorem SameOutsideStack.sameResult_exec (i : Instr) (ip : Nat)
    (hreads : ∀ j, j ∈ (instrAccess i ip s).stackReads → s.cell j = u.cell j) :
    SameResult (instrAccess i ip s).stackWrites (exec i s) (exec i u) := by
  cases i with
  | push v => exact h.sameResult_push v ip
  | plus => exact h.sameResult_binaryOperation noCheck plusValue ip hreads
  | minus => exact h.sameResult_binaryOperation noCheck minusValue ip hreads
  | mult => exact h.sameResult_binaryOperation noCheck multValue ip hreads
  | div => exact h.sameResult_binaryOperation divisorCheck divValue ip hreads
  | jmp x => exact ⟨_, _, rfl, rfl, rfl, h.size, rfl, h.halted, by simp [instrAccess]⟩
  | halt => exact ⟨_, _, rfl, rfl, rfl, h.size, congrArg (· + 1) h.ip, rfl, by simp [instrAccess]⟩

/-- Both machines meet the same situation (40_execution_engine.md R72), since it does not depend on the stack. -/
theorem SameOutsideStack.sameResult_step (hreads : ∀ i, i ∈ (accesses s).stackReads → s.cell i = u.cell i) :
    SameResult (accesses s).stackWrites (step s) (step u) := by
  obtain hh | ⟨hh, hf⟩ | ⟨opc, hm⟩ | ⟨i, he⟩ := halted_or_noFetch_or_illegal_or_executes s
  · rw [accesses_of_halted hh]
    exact ⟨_, _, step_of_halted hh, step_of_halted (h.halted ▸ hh), h.sameAnswer_withTrap .ok⟩
  · rw [accesses_of_noFetch hh hf]
    exact ⟨_, _, step_of_noFetch hh hf, step_of_noFetch (h.halted ▸ hh) (h.fetch_eq.trans hf),
      h.sameAnswer_withTrap .outOfBoundsFetch⟩
  · have hm' : MeetsIllegal u opc := ⟨h.halted ▸ hm.running, h.fetch_eq ▸ hm.word⟩
    rw [accesses_of_illegal hm]
    exact ⟨_, _, step_of_illegal hm, step_of_illegal hm', h.sameAnswer_withTrap .illegalInst⟩
  · rw [accesses_of_executes he] at hreads ⊢
    rw [step_of_executes he, step_of_executes (h.executes he)]
    exact h.sameResult_exec i _ hreads

end

/-- Settles O56: outside the stack the machines are the same, and the operands are the listed cells. -/
theorem stepReadsOnlyTheListedCells : Obligations.StepReadsOnlyTheListedCells := by
  intro s u s' u' hip hhalted hprog hcapacity hsize hreads hs hu
  obtain ⟨t, v, ht, hv, hsame⟩ := SameOutsideStack.sameResult_step ⟨hip, hhalted, hprog, hcapacity, hsize⟩ hreads
  obtain rfl : t = s' := Host.Outcome.next.inj (ht.symm.trans hs)
  obtain rfl : v = u' := Host.Outcome.next.inj (hv.symm.trans hu)
  obtain ⟨htrap, hsize', hip', hhalted', hcells⟩ := hsame
  exact ⟨htrap, hsize', hip', hhalted', hcells⟩

end Sys2Proof.Machine
end
